-- ==== Sys2Proof/Word.lean ====
section
/-! DEFINITION. The two bit-vector types every other file speaks of (R5, R6). What is computed on them stands
in `Sys2Proof/Machine/Ops.lean` (the 128-bit primitive, R8) and `Sys2Proof/Machine/Operands.lean`
(interpretation functions, R7). `uint(x)` of the spec is `x.toNat`, `sint(x)` is `x.toInt`. -/

namespace Sys2Proof

/-- A word `w[127:0]`: a Q64.64 word, a Q0.128 reciprocal or a bus (R5, R6). -/
abbrev Word := BitVec 128

/-- A limb: a 64-bit half of a word (R6). -/
abbrev Limb := BitVec 64

end Sys2Proof
end

