-- ==== Sys2Proof/Config.lean ====
section
/-! DEFINITION. What the spec leaves to the implementation. R5 fixes every width (word 128, limb 64, fraction
digits 64, opcode 8, fault code 3, `INVERT` divisor 64, binary64), and these stand as literals in the
types and rules that use them. One parameter stays open. -/

namespace Sys2Proof

/-- `LATENCY(op, operands)`, the time from a command's acceptance to its response (R133, decision D32): finite
(a natural number) and otherwise unconstrained. R133 forbids any rule to depend on it, so no definition of
the model reads it: a command is one atomic step (assumption 10). -/
opaque Config.latency (op : BitVec 8) (a b : Word) : Nat

end Sys2Proof
end

