-- ==== Sys2Proof/Syntax.lean ====
section
/-! DEFINITION. The commands: the raw command of the three input buses (R30), the 31 mnemonics (R33), and `Instr`,
one constructor per row of `spec/opcode_table.json`, each carrying exactly the operand bits that R31 says
the command reads (assumption 8). Every pattern of those bits is legal (R31, R114), so every term of
`Instr` is a command of the unit. -/

namespace Sys2Proof

/-- The command format `CMD` (R30): the three input buses sampled at acceptance. -/
structure Command where
  /-- `cmd_op[7:0]`, the opcode. -/
  op : BitVec 8
  /-- `cmd_a[127:0]`, the first operand. -/
  a : Word
  /-- `cmd_b[127:0]`, the second operand. -/
  b : Word
deriving DecidableEq, Repr

/-- The mnemonics of the opcode map (R33), in its order. -/
inductive Mnemonic where
  | zero | froms8 | froms16 | froms32 | froms64 | fromu8 | fromu16 | fromu32 | fromu64 | fromhilo | fromf64
  | add | sub | neg | pos | eq | lt | gt | tobool
  | mul | div | umul | udiv
  | invert | mulinv | umulinv
  | gethigh | getlow | getint | round | getdouble
deriving DecidableEq, Repr

/-- A decoded command with the operand bits it reads (R31, R33). -/
inductive Instr where
  /-- `ZERO` (0x00, R70). -/
  | zero
  /-- `FROMS8` (0x01, R71), `a[7:0]`. -/
  | froms8 (n : BitVec 8)
  /-- `FROMS16` (0x02, R72), `a[15:0]`. -/
  | froms16 (n : BitVec 16)
  /-- `FROMS32` (0x03, R73), `a[31:0]`. -/
  | froms32 (n : BitVec 32)
  /-- `FROMS64` (0x04, R74), `a[63:0]`. -/
  | froms64 (n : BitVec 64)
  /-- `FROMU8` (0x05, R75), `a[7:0]`. -/
  | fromu8 (n : BitVec 8)
  /-- `FROMU16` (0x06, R76), `a[15:0]`. -/
  | fromu16 (n : BitVec 16)
  /-- `FROMU32` (0x07, R77), `a[31:0]`. -/
  | fromu32 (n : BitVec 32)
  /-- `FROMU64` (0x08, R78), `a[63:0]`. -/
  | fromu64 (n : BitVec 64)
  /-- `FROMHILO` (0x09, R79): `HI` is `a[63:0]`, `LO` is `b[63:0]`. -/
  | fromhilo (h l : Limb)
  /-- `FROMF64` (0x0A, R80): the binary64 pattern `a[63:0]`. -/
  | fromf64 (d : BitVec 64)
  /-- `ADD` (0x10, R100). -/
  | add (a b : Word)
  /-- `SUB` (0x11, R101). -/
  | sub (a b : Word)
  /-- `NEG` (0x12, R102). -/
  | neg (a : Word)
  /-- `POS` (0x13, R103). -/
  | pos (a : Word)
  /-- `EQ` (0x14, R104). -/
  | eq (a b : Word)
  /-- `LT` (0x15, R105). -/
  | lt (a b : Word)
  /-- `GT` (0x16, R106). -/
  | gt (a b : Word)
  /-- `TOBOOL` (0x17, R107). -/
  | tobool (a : Word)
  /-- `MUL` (0x20, R43). -/
  | mul (a b : Word)
  /-- `DIV` (0x21, R52). -/
  | div (a b : Word)
  /-- `UMUL` (0x22, R42). -/
  | umul (a b : Word)
  /-- `UDIV` (0x23, R50). -/
  | udiv (a b : Word)
  /-- `INVERT` (0x30, R61): the divisor `a[63:0]`. -/
  | invert (v : BitVec 64)
  /-- `MULINV` (0x31, R63): `b` is the reciprocal. -/
  | mulinv (a b : Word)
  /-- `UMULINV` (0x32, R60): `b` is the reciprocal. -/
  | umulinv (a b : Word)
  /-- `GETHIGH` (0x40, R90). -/
  | gethigh (a : Word)
  /-- `GETLOW` (0x41, R91). -/
  | getlow (a : Word)
  /-- `GETINT` (0x42, R92). -/
  | getint (a : Word)
  /-- `ROUND` (0x43, R93). -/
  | round (a : Word)
  /-- `GETDOUBLE` (0x44, R94). -/
  | getdouble (a : Word)
deriving DecidableEq, Repr

end Sys2Proof
end

