-- ==== Sys2Proof/WellFormed.lean ====
section
/-! DEFINITION. The checks on a raw command. A term of `Instr` needs none: its types admit exactly the operand
patterns the spec admits (R31). A raw command can go wrong in one way, a reserved opcode (R34), and can
depart in two ways from the listing's convention of zeros in every ignored bit (R36). -/

namespace Sys2Proof

/-- How many low bits of bus `a` the command reads (R31); the bits above are ignored. -/
def Mnemonic.aBits : Mnemonic → Nat
  | .zero => 0
  | .froms8 | .fromu8 => 8
  | .froms16 | .fromu16 => 16
  | .froms32 | .fromu32 => 32
  | .froms64 | .fromu64 | .fromhilo | .fromf64 | .invert => 64
  | .add | .sub | .neg | .pos | .eq | .lt | .gt | .tobool | .mul | .div | .umul | .udiv | .mulinv | .umulinv
  | .gethigh | .getlow | .getint | .round | .getdouble => 128

/-- How many low bits of bus `b` the command reads (R31). -/
def Mnemonic.bBits : Mnemonic → Nat
  | .fromhilo => 64
  | .add | .sub | .eq | .lt | .gt | .mul | .div | .umul | .udiv | .mulinv | .umulinv => 128
  | .zero | .froms8 | .fromu8 | .froms16 | .fromu16 | .froms32 | .fromu32 | .froms64 | .fromu64 | .fromf64
  | .neg | .pos | .tobool | .invert | .gethigh | .getlow | .getint | .round | .getdouble => 0

/-- The reserved opcode ranges of R34: 225 opcodes. -/
def reservedOpcode (op : BitVec 8) : Bool :=
  let n := op.toNat
  (0x0B ≤ n && n ≤ 0x0F) || (0x18 ≤ n && n ≤ 0x1F) || (0x24 ≤ n && n ≤ 0x2F) || (0x33 ≤ n && n ≤ 0x3F) || 0x45 ≤ n

/-- The first check (R34): the opcode is listed in R33. Operand bits are no part of it. -/
def Command.legal (c : Command) : Bool := !reservedOpcode c.op

/-- The second and third check, for a command with mnemonic `m` (R36): zeros in every ignored bit of `a`, and of `b`. -/
def Command.ignoredZero (c : Command) (m : Mnemonic) : Bool :=
  decide (c.a.toNat < 2 ^ m.aBits) && decide (c.b.toNat < 2 ^ m.bBits)

end Sys2Proof
end

