-- ==== Sys2Proof/Decode.lean ====
section
/-! DEFINITION. The opcode map as a table look-up (R30, R33), the decoder (total; a reserved opcode is rejected by
name), the encoder, and the 264-bit listing word `a ‖ b ‖ op` (R30). -/

namespace Sys2Proof

/-- `cmd_op` of each mnemonic (R33). -/
def Mnemonic.opcode : Mnemonic → BitVec 8
  | .zero => 0x00
  | .froms8 => 0x01
  | .froms16 => 0x02
  | .froms32 => 0x03
  | .froms64 => 0x04
  | .fromu8 => 0x05
  | .fromu16 => 0x06
  | .fromu32 => 0x07
  | .fromu64 => 0x08
  | .fromhilo => 0x09
  | .fromf64 => 0x0A
  | .add => 0x10
  | .sub => 0x11
  | .neg => 0x12
  | .pos => 0x13
  | .eq => 0x14
  | .lt => 0x15
  | .gt => 0x16
  | .tobool => 0x17
  | .mul => 0x20
  | .div => 0x21
  | .umul => 0x22
  | .udiv => 0x23
  | .invert => 0x30
  | .mulinv => 0x31
  | .umulinv => 0x32
  | .gethigh => 0x40
  | .getlow => 0x41
  | .getint => 0x42
  | .round => 0x43
  | .getdouble => 0x44

/-- The rows of the opcode map (R33). -/
def opcodeTable : List Mnemonic :=
  [.zero, .froms8, .froms16, .froms32, .froms64, .fromu8, .fromu16, .fromu32, .fromu64, .fromhilo, .fromf64,
   .add, .sub, .neg, .pos, .eq, .lt, .gt, .tobool, .mul, .div, .umul, .udiv, .invert, .mulinv, .umulinv,
   .gethigh, .getlow, .getint, .round, .getdouble]

/-- The look-up on 8 bits, `match = opcode`, `mask = 0xFF` (R30). -/
def mnemonicOf (op : BitVec 8) : Option Mnemonic := opcodeTable.find? fun m => m.opcode == op

/-- Why the decoder refuses a command. -/
inductive DecodeReject where
  /-- The opcode is reserved (R34); the step then raises `IllegalCommand`. Safe. -/
  | reserved (op : BitVec 8)
deriving DecidableEq, Repr

/-- `x[n-1:0]`, the low slice of a bus (R31). -/
def lowBits (n : Nat) (x : Word) : BitVec n := x.setWidth n

/-- The operands of each command, read off the buses as R31 says. -/
def Mnemonic.build (m : Mnemonic) (a b : Word) : Instr :=
  match m with
  | .zero => .zero
  | .froms8 => .froms8 (lowBits 8 a)
  | .froms16 => .froms16 (lowBits 16 a)
  | .froms32 => .froms32 (lowBits 32 a)
  | .froms64 => .froms64 (lowBits 64 a)
  | .fromu8 => .fromu8 (lowBits 8 a)
  | .fromu16 => .fromu16 (lowBits 16 a)
  | .fromu32 => .fromu32 (lowBits 32 a)
  | .fromu64 => .fromu64 (lowBits 64 a)
  | .fromhilo => .fromhilo (lowBits 64 a) (lowBits 64 b)
  | .fromf64 => .fromf64 (lowBits 64 a)
  | .add => .add a b
  | .sub => .sub a b
  | .neg => .neg a
  | .pos => .pos a
  | .eq => .eq a b
  | .lt => .lt a b
  | .gt => .gt a b
  | .tobool => .tobool a
  | .mul => .mul a b
  | .div => .div a b
  | .umul => .umul a b
  | .udiv => .udiv a b
  | .invert => .invert (lowBits 64 a)
  | .mulinv => .mulinv a b
  | .umulinv => .umulinv a b
  | .gethigh => .gethigh a
  | .getlow => .getlow a
  | .getint => .getint a
  | .round => .round a
  | .getdouble => .getdouble a

/-- The decoder (R33, R34, R39): total on all commands. -/
def decode (c : Command) : Except DecodeReject Instr :=
  match mnemonicOf c.op with
  | some m => .ok (m.build c.a c.b)
  | none => .error (.reserved c.op)

/-- The row of R33 an instruction stands in. -/
def Instr.mnemonic : Instr → Mnemonic
  | .zero => .zero
  | .froms8 _ => .froms8
  | .froms16 _ => .froms16
  | .froms32 _ => .froms32
  | .froms64 _ => .froms64
  | .fromu8 _ => .fromu8
  | .fromu16 _ => .fromu16
  | .fromu32 _ => .fromu32
  | .fromu64 _ => .fromu64
  | .fromhilo _ _ => .fromhilo
  | .fromf64 _ => .fromf64
  | .add _ _ => .add
  | .sub _ _ => .sub
  | .neg _ => .neg
  | .pos _ => .pos
  | .eq _ _ => .eq
  | .lt _ _ => .lt
  | .gt _ _ => .gt
  | .tobool _ => .tobool
  | .mul _ _ => .mul
  | .div _ _ => .div
  | .umul _ _ => .umul
  | .udiv _ _ => .udiv
  | .invert _ => .invert
  | .mulinv _ _ => .mulinv
  | .umulinv _ _ => .umulinv
  | .gethigh _ => .gethigh
  | .getlow _ => .getlow
  | .getint _ => .getint
  | .round _ => .round
  | .getdouble _ => .getdouble

/-- Bus `a` of an instruction, zeros in every ignored bit (R31, R36). -/
def Instr.busA : Instr → Word
  | .zero => 0
  | .froms8 n | .fromu8 n => n.setWidth 128
  | .froms16 n | .fromu16 n => n.setWidth 128
  | .froms32 n | .fromu32 n => n.setWidth 128
  | .froms64 n | .fromu64 n | .fromf64 n | .invert n => n.setWidth 128
  | .fromhilo h _ => h.setWidth 128
  | .add a _ | .sub a _ | .eq a _ | .lt a _ | .gt a _ | .mul a _ | .div a _ | .umul a _ | .udiv a _
  | .mulinv a _ | .umulinv a _ => a
  | .neg a | .pos a | .tobool a | .gethigh a | .getlow a | .getint a | .round a | .getdouble a => a

/-- Bus `b` of an instruction, zeros in every ignored bit (R31, R36). -/
def Instr.busB : Instr → Word
  | .fromhilo _ l => l.setWidth 128
  | .add _ b | .sub _ b | .eq _ b | .lt _ b | .gt _ b | .mul _ b | .div _ b | .umul _ b | .udiv _ b
  | .mulinv _ b | .umulinv _ b => b
  | .zero | .froms8 _ | .froms16 _ | .froms32 _ | .froms64 _ | .fromu8 _ | .fromu16 _ | .fromu32 _ | .fromu64 _
  | .fromf64 _ | .neg _ | .pos _ | .tobool _ | .invert _ | .gethigh _ | .getlow _ | .getint _ | .round _
  | .getdouble _ => 0

/-- The encoder: the triple `(op, a, b)` of an instruction (R30, R33, R36). -/
def encode (i : Instr) : Command := ⟨i.mnemonic.opcode, i.busA, i.busB⟩

/-- The 264-bit listing word `a ‖ b ‖ op` (R30). -/
def Command.toBits (c : Command) : BitVec 264 := c.a ++ c.b ++ c.op

/-- The command whose listing word is `x`: `a` is bits [263:136], `b` bits [135:8], `op` bits [7:0] (R30). -/
def Command.ofBits (x : BitVec 264) : Command :=
  ⟨x.extractLsb' 0 8, x.extractLsb' 136 128, x.extractLsb' 8 128⟩

/-- The command whose listing word has `w` in its low `nbits` bits and zeros above (assumption 11). -/
def commandOfTableWord (nbits w : Nat) : Command := Command.ofBits (BitVec.ofNat 264 (w % 2 ^ nbits))

/-- The instruction the decoder reads from the opcode table's bits `w` (the host's numbering, which is R30's). -/
def decodeTableWord (nbits w : Nat) : Option Instr :=
  match decode (commandOfTableWord nbits w) with
  | .ok i => some i
  | .error _ => none

end Sys2Proof
end

