-- ==== Sys2Proof/Machine/State.lean ====
section
/-! DEFINITION. The state: the unit's one register `FLT` (R11, R12), and the two sides of its ports (R18) as plain
data: what the host will drive on the input ports, and the response on the output port. -/

namespace Sys2Proof.Machine

/-- The four faults of R110. -/
inductive Cause where
  | arithmeticOverflow
  | invalidDivisor
  | unrepresentableConversion
  | illegalCommand
deriving DecidableEq, Repr

/-- A response (R32): a result with `rsp_flt = 0`, or a nonzero `rsp_flt` and no result (`rsp_res` is then
unspecified and the model delivers no value: D13, V3). -/
inductive Response where
  /-- `rsp_flt = 0`, `rsp_res = res`. -/
  | ok (res : Word)
  /-- `rsp_flt = flt`, no result. -/
  | fault (flt : BitVec 3)
deriving DecidableEq, Repr

/-- What the host drives on the input ports for one step (R10, R18). -/
structure Drive where
  /-- The `rst` input. -/
  rst : Bool
  /-- `cmd_valid` with `cmd_op`, `cmd_a`, `cmd_b`; `none` is `cmd_valid = 0`. -/
  cmd : Option Command
deriving DecidableEq, Repr

/-- The machine. Only `flt` is state of the unit (R11). -/
structure State where
  /-- The register `FLT` (R12), field `CAUSE`. -/
  flt : BitVec 3
  /-- The MODEL's own field: what the host will drive, first step first. R10 makes the sequence of commands an input
  of the model, a list (assumption 1). -/
  host : List Drive
  /-- The MODEL's own field: the response port after the last step (`none` is `rsp_valid = 0`). Every step writes it
  and no step reads it (R13, R18; assumption 2). -/
  rsp : Option Response
deriving DecidableEq, Repr

/-- Reasons to stop with a fault: none. A fault of the spec is a next state, with `FLT` latched and the response
carrying the code (R115, R117), so no step ends in one (assumption 4). -/
inductive Fault where
deriving DecidableEq, Repr

/-- Reasons to stop with a refusal. -/
inductive Refusal where
  /-- Raised by an arm of `exec` whose instruction has no meaning yet; every arm has one, so nothing raises it. Safe. -/
  | notModelled (mnemonic : String)
deriving DecidableEq, Repr

/-- The machine right after reset (R19, R130): `FLT = 0`, no response, and a host that drives nothing. -/
def State.reset : State := { flt := 0, host := [], rsp := none }

end Sys2Proof.Machine
end

