-- ==== Sys2Proof/Machine/Ops.lean ====
section
/-! DEFINITION. The shared operations: the 128-bit primitive (R8), the input ports of one step (R18), completing a
command (R32), raising a fault as one operation with reset, the only way out, beside it (R115, R118, R130),
and the halted answer (R117). -/

namespace Sys2Proof.Machine

/-! The 128-bit integer primitive (R8), on naturals below `2^128`. -/

/-- `(x + y) mod 2^128`. -/
def add128 (x y : Nat) : Nat := (x + y) % 2 ^ 128

/-- `(x - y) mod 2^128`. -/
def sub128 (x y : Nat) : Nat := (x + (2 ^ 128 - y % 2 ^ 128)) % 2 ^ 128

/-- `(2^128 - x) mod 2^128`. -/
def neg128 (x : Nat) : Nat := (2 ^ 128 - x) % 2 ^ 128

/-- `(x * 2^k) mod 2^128`. -/
def shl128 (x k : Nat) : Nat := (x * 2 ^ k) % 2 ^ 128

/-- `floor(x / 2^k)`, logical. -/
def shr128 (x k : Nat) : Nat := x / 2 ^ k

/-- `bv_128(floor(sint(x) / 2^k))`, arithmetic. -/
def sar128 (x : Word) (k : Nat) : Word := BitVec.ofInt 128 (x.toInt / 2 ^ k)

/-- Bitwise AND. -/
def and128 (x y : Nat) : Nat := x &&& y

/-- `(x * y) mod 2^128`. -/
def mul128 (x y : Nat) : Nat := (x * y) % 2 ^ 128

/-- `floor(x / y)`, for `y ≠ 0`. -/
def div128 (x y : Nat) : Nat := x / y

/-- `x - y * floor(x / y)`, for `y ≠ 0`. -/
def rem128 (x y : Nat) : Nat := x - y * (x / y)

/-- The code each fault latches into `FLT` (R12, R110). -/
def Cause.code : Cause → BitVec 3
  | .arithmeticOverflow => 1
  | .invalidDivisor => 2
  | .unrepresentableConversion => 3
  | .illegalCommand => 4

/-! The ports of one step (R18). -/

/-- What the host drives now; a host with nothing listed drives nothing. -/
def State.drive (s : State) : Drive := s.host.headD ⟨false, none⟩

/-- The input `rst`. -/
def State.rst (s : State) : Bool := s.drive.rst

/-- The output `cmd_ready`: `rst` is low and no command is outstanding. Between two atomic steps none is. -/
def State.cmdReady (s : State) : Bool := !s.rst

/-- The command accepted in this step: `cmd_valid` and `cmd_ready` are both 1. -/
def State.accepted (s : State) : Option Command := if s.cmdReady then s.drive.cmd else none

/-- The host moves on to its next drive, and the response port is not valid until something answers. -/
def State.advance (s : State) : State := { s with host := s.host.tail, rsp := none }

/-- The output `halted`: 1 exactly when `FLT ≠ 0` (R12, R18). -/
def State.halted (s : State) : Bool := s.flt != 0

/-- The output `rsp_valid`. -/
def State.rspValid (s : State) : Bool := s.rsp.isSome

/-- The output `rsp_flt`; `none` while it carries no meaning (R18, V6). -/
def State.rspFlt (s : State) : Option (BitVec 3) :=
  match s.rsp with
  | none => none
  | some (.ok _) => some 0
  | some (.fault c) => some c

/-- The output `rsp_res`; `none` where it is unspecified (R18, R32, V3, V6). -/
def State.rspRes (s : State) : Option Word :=
  match s.rsp with
  | some (.ok res) => some res
  | _ => none

/-! What a command does to the state. -/

/-- A command completes: the response carries its result and `FLT` stays as it is (R32, R39). -/
def State.complete (s : State) (res : Word) : State := { s with rsp := some (.ok res) }

/-- Fault entry (R115): the code is latched into `FLT` and carried by the response; nothing else is written. -/
def State.raise (s : State) (c : Cause) : State := { s with flt := c.code, rsp := some (.fault c.code) }

/-- The halted unit's answer to any command (R117): the latched code, nothing executed. -/
def State.answerHalted (s : State) : State := { s with rsp := some (.fault s.flt) }

/-- Reset (R130), the only return from a fault (R118): `FLT` is 0 and there is no response. -/
def State.applyReset (s : State) : State := { s with flt := 0, rsp := none }

/-- A command's effect on the unit (R39): halted, the latched answer; else its result, or the fault it raises. -/
def perform (s : State) (r : Except Cause Word) : Host.Outcome State Fault Refusal :=
  if s.halted then .next s.answerHalted
  else
    match r with
    | .ok res => .next (s.complete res)
    | .error c => .next (s.raise c)

end Sys2Proof.Machine
end

