-- ==== Sys2Proof/Machine/Operands.lean ====
section
/-! DEFINITION. How operands are read (R7, R31) and results placed (R32), the limbs (R6), the constants (R7), the
values words stand for (R7, R21, R28), and the fields of a binary64 pattern (R29). -/

namespace Sys2Proof.Machine

/-! Limbs and constants (R6, R7). -/

/-- The high limb `floor(x / 2^64)` of a natural below `2^128`. -/
def hiLimb (x : Nat) : Nat := x / 2 ^ 64

/-- The low limb `x mod 2^64`. -/
def loLimb (x : Nat) : Nat := x % 2 ^ 64

/-- `hi(w) = w[127:64]`. -/
def Word.hi (w : Word) : Limb := w.extractLsb' 64 64

/-- `lo(w) = w[63:0]`. -/
def Word.lo (w : Word) : Limb := w.extractLsb' 0 64

/-- `MIN`, `sint = -2^127`. -/
def Word.min : Word := BitVec.ofNat 128 (2 ^ 127)

/-- `MAX`, `sint = 2^127 - 1`. -/
def Word.max : Word := BitVec.ofNat 128 (2 ^ 127 - 1)

/-- `ONE`, `val = 1`. -/
def Word.one : Word := BitVec.ofNat 128 (2 ^ 64)

/-- `HALF`, `val = 0.5`. -/
def Word.half : Word := BitVec.ofNat 128 (2 ^ 63)

/-- `from(n)`: the word `bv_128(n * 2^64)`. -/
def Word.from (n : Int) : Word := BitVec.ofInt 128 (n * 2 ^ 64)

/-- `from(h, l)`: the word `h ‖ l`. -/
def Word.fromPair (h l : Limb) : Word := h ++ l

/-! The values words stand for (R7, R21, R28): used by claims, not by the machine. -/

/-- `val(w)`, the value of a signed Q64.64 word. -/
def Word.val (w : Word) : ℚ := (w.toInt : ℚ) / 2 ^ 64

/-- `uval(w)`, the value of an unsigned Q64.64 magnitude. -/
def Word.uval (w : Word) : ℚ := (w.toNat : ℚ) / 2 ^ 64

/-- `rval(w)`, the value of a Q0.128 reciprocal. -/
def Word.rval (w : Word) : ℚ := (w.toNat : ℚ) / 2 ^ 128

/-! Narrow integer operands (R31), widened to a Q64.64 word. -/

/-- `bv_128(sint(n) * 2^64)`: a signed integer shifted left by 64 (R71 to R74). -/
def fromSigned {k : Nat} (n : BitVec k) : Word := BitVec.ofInt 128 (n.toInt * 2 ^ 64)

/-- `bv_128(uint(n) * 2^64)`: an unsigned integer shifted left by 64 (R75 to R78). -/
def fromUnsigned {k : Nat} (n : BitVec k) : Word := BitVec.ofNat 128 (n.toNat * 2 ^ 64)

/-! Result placement (R32). -/

/-- Types `Q`, `U` and `R`: all of `res[127:0]`. -/
def placeWord (n : Nat) : Word := BitVec.ofNat 128 n

/-- Types `S64`, `U64` and `F64`: `res[63:0]`, with `res[127:64] = 0`. -/
def place64 (x : BitVec 64) : Word := x.setWidth 128

/-- Type `BOOL`: `res[0]`, with `res[127:1] = 0`. -/
def placeBool (p : Bool) : Word := if p then 1 else 0

/-! The binary64 pattern (R29). -/

/-- The sign bit `d[63]`. -/
def F64.sign (d : BitVec 64) : Bool := d.msb

/-- The biased exponent `uint(d[62:52])`. -/
def F64.exponent (d : BitVec 64) : Nat := (d.extractLsb' 52 11).toNat

/-- The fraction `uint(d[51:0])`. -/
def F64.fraction (d : BitVec 64) : Nat := (d.extractLsb' 0 52).toNat

/-- The magnitude of a finite pattern as a number of units of `2^(-1074)`, exact for every finite pattern (R29):
`f` when `e = 0`, else `(2^52 + f) * 2^(e - 1)` (assumption 13). -/
def F64.units (d : BitVec 64) : Nat :=
  if F64.exponent d = 0 then F64.fraction d else (2 ^ 52 + F64.fraction d) * 2 ^ (F64.exponent d - 1)

/-- The pattern `s ‖ e ‖ f` (R29). -/
def F64.pack (s : Bool) (e f : Nat) : BitVec 64 := BitVec.ofBool s ++ BitVec.ofNat 11 e ++ BitVec.ofNat 52 f

/-- The magnitude of a finite pattern as a rational (R29): used by claims, not by the machine. -/
def F64.magnitude (d : BitVec 64) : ℚ :=
  if F64.exponent d = 0 then (F64.fraction d : ℚ) * (2 : ℚ) ^ (-1074 : ℤ)
  else ((2 ^ 52 + F64.fraction d : ℕ) : ℚ) * (2 : ℚ) ^ ((F64.exponent d : ℤ) - 1075)

/-- The value of a finite pattern as a rational (R29): used by claims, not by the machine. -/
def F64.value (d : BitVec 64) : ℚ := if F64.sign d then -F64.magnitude d else F64.magnitude d

end Sys2Proof.Machine
end

