-- ==== Sys2Proof/Machine/Flags.lean ====
section
/-! DEFINITION. Flags: the unit has none (R15). No command sets a carry, overflow, zero or sign flag; what it computes
instead of a flag stands here: the comparisons behind the `BOOL` results (R104 to R107) and the legal
values of the one status register `FLT` (R12). -/

namespace Sys2Proof.Machine

/-- `sint(a) = sint(b)` (R104). -/
def signedEq (a b : Word) : Bool := decide (a.toInt = b.toInt)

/-- `sint(a) < sint(b)` (R105). -/
def signedLt (a b : Word) : Bool := decide (a.toInt < b.toInt)

/-- `uint(a) ≠ 0` (R107). -/
def nonzero (a : Word) : Bool := decide (a.toNat ≠ 0)

/-- The legal values of `FLT.CAUSE`: 0 to 4; 5, 6 and 7 are never produced (R12). -/
def legalFlt (c : BitVec 3) : Bool := decide (c.toNat ≤ 4)

end Sys2Proof.Machine
end

