-- ==== Sys2Proof/Machine/SignMagnitude.lean ====
section
/-! DEFINITION. The sign/magnitude normalizer (R40) and the step that puts the sign back (R41). Both are internal
functions, not commands. -/

namespace Sys2Proof.Machine

/-- `Abs(x)`: the unsigned 128-bit magnitude; `Abs(MIN) = 2^127`, with no special case (R40). -/
def absWord (x : Word) : Nat := if x.msb then neg128 x.toNat else x.toNat

/-- The normalizer's three outputs (R40). -/
structure Magnitudes where
  ua : Nat
  ub : Nat
  negative : Bool
deriving DecidableEq, Repr

/-- `Normalize(sa, sb)`: the two magnitudes and `negative = sign(sa) ≠ sign(sb)` (R40). -/
def normalizeSigns (sa sb : Word) : Magnitudes := ⟨absWord sa, absWord sb, sa.msb != sb.msb⟩

/-- The signed word of a magnitude, unchecked: `bv_128(if negative then neg128(m) else m)`. -/
def signedWord (m : Nat) (negative : Bool) : Word := BitVec.ofNat 128 (if negative then neg128 m else m)

/-- `ApplySign(m, negative)` (R41): `ArithmeticOverflow` where the signed range has no word. -/
def applySign (m : Nat) (negative : Bool) : Except Cause Word :=
  if m > 2 ^ 127 then .error .arithmeticOverflow
  else if m = 2 ^ 127 ∧ negative = false then .error .arithmeticOverflow
  else .ok (signedWord m negative)

end Sys2Proof.Machine
end

