-- ==== Sys2Proof/Machine/ConvertIn.lean ====
section
/-! DEFINITION. The constructors (R70 to R80): `ZERO`, from integers, from a pair, from binary64. -/

namespace Sys2Proof.Machine

/-- `ZERO` (R70). -/
def execZero (s : State) : Host.Outcome State Fault Refusal := perform s (.ok (placeWord 0))

/-- `FROMS8` (R71). -/
def execFroms8 (n : BitVec 8) (s : State) : Host.Outcome State Fault Refusal := perform s (.ok (fromSigned n))

/-- `FROMS16` (R72). -/
def execFroms16 (n : BitVec 16) (s : State) : Host.Outcome State Fault Refusal := perform s (.ok (fromSigned n))

/-- `FROMS32` (R73). -/
def execFroms32 (n : BitVec 32) (s : State) : Host.Outcome State Fault Refusal := perform s (.ok (fromSigned n))

/-- `FROMS64` (R74). -/
def execFroms64 (n : BitVec 64) (s : State) : Host.Outcome State Fault Refusal := perform s (.ok (fromSigned n))

/-- `FROMU8` (R75). -/
def execFromu8 (n : BitVec 8) (s : State) : Host.Outcome State Fault Refusal := perform s (.ok (fromUnsigned n))

/-- `FROMU16` (R76). -/
def execFromu16 (n : BitVec 16) (s : State) : Host.Outcome State Fault Refusal := perform s (.ok (fromUnsigned n))

/-- `FROMU32` (R77). -/
def execFromu32 (n : BitVec 32) (s : State) : Host.Outcome State Fault Refusal := perform s (.ok (fromUnsigned n))

/-- `FROMU64` (R78): the word reads as negative for `n ≥ 2^63`, and no fault is raised. -/
def execFromu64 (n : BitVec 64) (s : State) : Host.Outcome State Fault Refusal := perform s (.ok (fromUnsigned n))

/-- `FROMHILO` (R79). -/
def execFromhilo (h l : Limb) (s : State) : Host.Outcome State Fault Refusal := perform s (.ok (Word.fromPair h l))

/-- The magnitude word `w` of a binary64 magnitude of `u` units of `2^(-1074)` (R80): integer part `fhi`, rounded
fraction `L = floor(flo * 2^64 + 1/2)`, and the carry. -/
def f64Word (u : Nat) : Nat :=
  let fhi := u / 2 ^ 1074
  let flo := u % 2 ^ 1074
  let l := (flo * 2 ^ 65 + 2 ^ 1074) / 2 ^ 1075
  if l = 2 ^ 64 then (fhi + 1) * 2 ^ 64 else fhi * 2 ^ 64 + l

/-- `FROMF64`'s computation (R80): infinities, not-a-numbers, `x ≥ 2^63` and `x < -2^63` fault. -/
def fromF64 (d : BitVec 64) : Except Cause Word :=
  let u := F64.units d
  if F64.exponent d = 2047 then .error .unrepresentableConversion
  else if u > 2 ^ 63 * 2 ^ 1074 then .error .unrepresentableConversion
  else if u = 2 ^ 63 * 2 ^ 1074 ∧ F64.sign d = false then .error .unrepresentableConversion
  else .ok (signedWord (f64Word u) (F64.sign d && decide (u ≠ 0)))

/-- `FROMF64` (R80). -/
def execFromf64 (d : BitVec 64) (s : State) : Host.Outcome State Fault Refusal := perform s (fromF64 d)

end Sys2Proof.Machine
end

