-- ==== Sys2Proof/Machine/ConvertOut.lean ====
section
/-! DEFINITION. The extractors (R90 to R95): the limbs, the truncated and the rounded integer, the binary64 value. -/

namespace Sys2Proof.Machine

/-- A magnitude's integer with its sign, a 64-bit two's-complement pattern: `bv_64(-h)` or `bv_64(h)` (R92, R93). -/
def signed64 (h : Nat) (negative : Bool) : BitVec 64 := if negative then BitVec.ofInt 64 (-(h : Int)) else BitVec.ofNat 64 h

/-- The significand of `RNE64(m)` and the top bit's position (R95): `m` rounded to 53 bits, to nearest, ties to even,
with the renormalisation on carry. Answers `(q, k)`. -/
def rneSignificand (m : Nat) : Nat × Nat :=
  let k := Nat.log2 m
  if k ≤ 52 then (m * 2 ^ (52 - k), k)
  else
    let s := k - 52
    let q := m / 2 ^ s
    let r := m % 2 ^ s
    let half := 2 ^ (s - 1)
    let q' := if r > half ∨ (r = half ∧ q % 2 = 1) then q + 1 else q
    if q' = 2 ^ 53 then (2 ^ 52, k + 1) else (q', k)

/-- `RNE64(m)` with sign bit `s`: the binary64 pattern of `m / 2^64`, for `1 ≤ m ≤ 2^127` (R94, R95). -/
def rne64 (s : Bool) (m : Nat) : BitVec 64 :=
  let p := rneSignificand m
  F64.pack s (p.2 + 959) (p.1 - 2 ^ 52)

/-- `GETHIGH` (R90). -/
def execGethigh (a : Word) (s : State) : Host.Outcome State Fault Refusal := perform s (.ok (place64 (Word.hi a)))

/-- `GETLOW` (R91). -/
def execGetlow (a : Word) (s : State) : Host.Outcome State Fault Refusal := perform s (.ok (place64 (Word.lo a)))

/-- `GETINT` (R92): truncation toward zero. -/
def execGetint (a : Word) (s : State) : Host.Outcome State Fault Refusal :=
  perform s (.ok (place64 (signed64 (hiLimb (absWord a)) a.msb)))

/-- `ROUND` (R93): to nearest, ties away from zero; wraps at `+2^63` without a fault. -/
def execRound (a : Word) (s : State) : Host.Outcome State Fault Refusal :=
  perform s (.ok (place64 (signed64 (hiLimb (absWord a + 2 ^ 63)) a.msb)))

/-- `GETDOUBLE` (R94): one rounding of the exact value; the zero word gives `+0.0`. -/
def execGetdouble (a : Word) (s : State) : Host.Outcome State Fault Refusal :=
  perform s (.ok (place64 (if absWord a = 0 then 0 else rne64 a.msb (absWord a))))

end Sys2Proof.Machine
end

