-- ==== Sys2Proof/Machine/Facade.lean ====
section
/-! DEFINITION. The facade operators (R100 to R107): unchecked addition, subtraction and negation, the identity, the
comparisons and the boolean conversion. -/

namespace Sys2Proof.Machine

/-- `ADD` (R100): wraps silently. -/
def execAdd (a b : Word) (s : State) : Host.Outcome State Fault Refusal :=
  perform s (.ok (placeWord (add128 a.toNat b.toNat)))

/-- `SUB` (R101): wraps silently. -/
def execSub (a b : Word) (s : State) : Host.Outcome State Fault Refusal :=
  perform s (.ok (placeWord (sub128 a.toNat b.toNat)))

/-- `NEG` (R102): `NEG(MIN) = MIN`, silently. -/
def execNeg (a : Word) (s : State) : Host.Outcome State Fault Refusal := perform s (.ok (placeWord (neg128 a.toNat)))

/-- `POS` (R103): the identity. -/
def execPos (a : Word) (s : State) : Host.Outcome State Fault Refusal := perform s (.ok a)

/-- `EQ` (R104). -/
def execEq (a b : Word) (s : State) : Host.Outcome State Fault Refusal := perform s (.ok (placeBool (signedEq a b)))

/-- `LT` (R105): a signed comparison, not read off a wrapped difference. -/
def execLt (a b : Word) (s : State) : Host.Outcome State Fault Refusal := perform s (.ok (placeBool (signedLt a b)))

/-- `GT` (R106). -/
def execGt (a b : Word) (s : State) : Host.Outcome State Fault Refusal := perform s (.ok (placeBool (signedLt b a)))

/-- `TOBOOL` (R107). -/
def execTobool (a : Word) (s : State) : Host.Outcome State Fault Refusal := perform s (.ok (placeBool (nonzero a)))

end Sys2Proof.Machine
end

