-- ==== Sys2Proof/Machine/Multiply.lean ====
section
/-! DEFINITION. The unsigned multiplier (R42) and the signed multiply (R43). -/

namespace Sys2Proof.Machine

/-- `Umul(a, b)` on naturals below `2^128` (R42), limb by limb, with its two checks in order. -/
def umul (a b : Nat) : Except Cause Nat :=
  let al := loLimb a
  let ah := hiLimb a
  let bl := loLimb b
  let bh := hiLimb b
  let mid := ah * bl + al * bh
  let high := ah * bh
  if high > 2 ^ 63 then .error .arithmeticOverflow
  else
    let res := al * bl / 2 ^ 64 + mid + high * 2 ^ 64
    if res ≥ 2 ^ 128 then .error .arithmeticOverflow else .ok res

/-- `MUL`'s computation (R43): normalize, multiply the magnitudes, put the sign back. -/
def mulWords (a b : Word) : Except Cause Word :=
  let n := normalizeSigns a b
  (umul n.ua n.ub).bind fun m => applySign m n.negative

/-- `UMUL` (R42). -/
def execUmul (a b : Word) (s : State) : Host.Outcome State Fault Refusal :=
  perform s ((umul a.toNat b.toNat).map placeWord)

/-- `MUL` (R43). -/
def execMul (a b : Word) (s : State) : Host.Outcome State Fault Refusal := perform s (mulWords a b)

end Sys2Proof.Machine
end

