-- ==== Sys2Proof/Machine/Divide.lean ====
section
/-! DEFINITION. The unsigned divider (R50), step for step, and the signed divide (R52). Each `while` of the rule is a
loop on fuel 64, which its own guard never outruns (assumption 14; proved in `Sys2Proof/Laws/Divide.lean`). -/

namespace Sys2Proof.Machine

/-- The divider's working values (R50); they live inside one command (R17). -/
structure DivState where
  result : Nat
  rem : Nat
  den : Nat
  digits : Nat
  shift : Nat
deriving DecidableEq, Repr

/-- The up-front strip: `while shift < 64 and den mod 2 = 0`. Answers `(shift, den)`. -/
def stripLoop : Nat → Nat → Nat → Nat × Nat
  | 0, shift, den => (shift, den)
  | fuel + 1, shift, den =>
    if shift < 64 ∧ den % 2 = 0 then stripLoop fuel (shift + 1) (shr128 den 1) else (shift, den)

/-- The first inner loop: `while digits + shift < 64 and rem < 2^127`. Answers `(shift, rem)`. -/
def remLoop (digits : Nat) : Nat → Nat → Nat → Nat × Nat
  | 0, shift, rem => (shift, rem)
  | fuel + 1, shift, rem =>
    if digits + shift < 64 ∧ rem < 2 ^ 127 then remLoop digits fuel (shift + 1) (rem * 2) else (shift, rem)

/-- The second inner loop: `while digits + shift < 64 and (den mod 2 = 0 or rem < den)`. Answers `(shift, den)`. -/
def denLoop (digits rem : Nat) : Nat → Nat → Nat → Nat × Nat
  | 0, shift, den => (shift, den)
  | fuel + 1, shift, den =>
    if digits + shift < 64 ∧ (den % 2 = 0 ∨ rem < den) then denLoop digits rem fuel (shift + 1) (shr128 den 1)
    else (shift, den)

/-- One pass of the outer loop. -/
def divPass (d : DivState) : DivState :=
  let r := remLoop d.digits 64 d.shift d.rem
  let e := denLoop d.digits r.2 64 r.1 d.den
  { result := (d.result * 2 ^ e.1 + div128 r.2 e.2) % 2 ^ 128
    rem := rem128 r.2 e.2
    den := e.2
    digits := d.digits + e.1
    shift := 0 }

/-- The outer loop: `while digits < 64 and rem ≠ 0`. -/
def divLoop : Nat → DivState → DivState
  | 0, d => d
  | fuel + 1, d => if d.digits < 64 ∧ d.rem ≠ 0 then divLoop fuel (divPass d) else d

/-- The working values after the first native division and the strip. -/
def divStart (a b : Nat) : DivState :=
  let p := stripLoop 64 0 b
  { result := div128 a b, rem := rem128 a b, den := p.2, digits := 0, shift := p.1 }

/-- `Udiv(a, b)` on naturals below `2^128` (R50): the zero test, the overflow test, the extraction loop, the final
alignment. -/
def udiv (a b : Nat) : Except Cause Nat :=
  if b = 0 then .error .invalidDivisor
  else if div128 a b ≥ 2 ^ 64 then .error .arithmeticOverflow
  else
    let d := divLoop 64 (divStart a b)
    .ok (if d.digits < 64 then shl128 d.result (64 - d.digits) else d.result)

/-- `DIV`'s computation (R52): normalize, divide the magnitudes, put the sign back. -/
def divWords (a b : Word) : Except Cause Word :=
  let n := normalizeSigns a b
  (udiv n.ua n.ub).bind fun m => applySign m n.negative

/-- `UDIV` (R50). -/
def execUdiv (a b : Word) (s : State) : Host.Outcome State Fault Refusal :=
  perform s ((udiv a.toNat b.toNat).map placeWord)

/-- `DIV` (R52). -/
def execDiv (a b : Word) (s : State) : Host.Outcome State Fault Refusal := perform s (divWords a b)

end Sys2Proof.Machine
end

