-- ==== Sys2Proof/Machine/Reciprocal.lean ====
section
/-! DEFINITION. The reciprocal engine: `UMULINV` (R60), `INVERT` (R61), `MULINV` (R63). -/

namespace Sys2Proof.Machine

/-- `UmulByInvert(a, b)` on naturals below `2^128` (R60): the middle sum is exact, the `al * bl` term is dropped. -/
def umulByInvert (a b : Nat) : Except Cause Nat :=
  if b > 2 ^ 127 then .error .invalidDivisor
  else
    let al := loLimb a
    let ah := hiLimb a
    let bl := loLimb b
    let bh := hiLimb b
    let high := ah * bh
    let mid := (ah * bl + al * bh) / 2 ^ 64
    .ok (high + mid)

/-- `INVERT`'s computation (R61): `Udiv(2^64, v)`, the check product, and the increment by 1 ULP. -/
def invertNat (v : Nat) : Except Cause Nat :=
  if v ≤ 1 then .error .invalidDivisor
  else
    (udiv (2 ^ 64) v).bind fun r =>
      (umulByInvert (v * 2 ^ 64) r).map fun t => if hiLimb t ≠ 1 then add128 r 1 else r

/-- `MULINV`'s computation (R63): the sign of the result is the sign of `a`. -/
def mulByInvert (a b : Word) : Except Cause Word :=
  (umulByInvert (absWord a) b.toNat).map fun m => signedWord m a.msb

/-- `UMULINV` (R60). -/
def execUmulinv (a b : Word) (s : State) : Host.Outcome State Fault Refusal :=
  perform s ((umulByInvert a.toNat b.toNat).map placeWord)

/-- `INVERT` (R61). -/
def execInvert (v : BitVec 64) (s : State) : Host.Outcome State Fault Refusal :=
  perform s ((invertNat v.toNat).map placeWord)

/-- `MULINV` (R63). -/
def execMulinv (a b : Word) (s : State) : Host.Outcome State Fault Refusal := perform s (mulByInvert a b)

end Sys2Proof.Machine
end

