-- ==== Sys2Proof/Machine/Dispatch.lean ====
section
/-! DEFINITION. One arm per command of R33, each a direct call of its meaning. -/

namespace Sys2Proof.Machine

def exec (i : Instr) (s : State) : Host.Outcome State Fault Refusal :=
  match i with
  | .zero => Sys2Proof.Machine.execZero s
  | .froms8 n => Sys2Proof.Machine.execFroms8 n s
  | .froms16 n => Sys2Proof.Machine.execFroms16 n s
  | .froms32 n => Sys2Proof.Machine.execFroms32 n s
  | .froms64 n => Sys2Proof.Machine.execFroms64 n s
  | .fromu8 n => Sys2Proof.Machine.execFromu8 n s
  | .fromu16 n => Sys2Proof.Machine.execFromu16 n s
  | .fromu32 n => Sys2Proof.Machine.execFromu32 n s
  | .fromu64 n => Sys2Proof.Machine.execFromu64 n s
  | .fromhilo h l => Sys2Proof.Machine.execFromhilo h l s
  | .fromf64 d => Sys2Proof.Machine.execFromf64 d s
  | .add a b => Sys2Proof.Machine.execAdd a b s
  | .sub a b => Sys2Proof.Machine.execSub a b s
  | .neg a => Sys2Proof.Machine.execNeg a s
  | .pos a => Sys2Proof.Machine.execPos a s
  | .eq a b => Sys2Proof.Machine.execEq a b s
  | .lt a b => Sys2Proof.Machine.execLt a b s
  | .gt a b => Sys2Proof.Machine.execGt a b s
  | .tobool a => Sys2Proof.Machine.execTobool a s
  | .mul a b => Sys2Proof.Machine.execMul a b s
  | .div a b => Sys2Proof.Machine.execDiv a b s
  | .umul a b => Sys2Proof.Machine.execUmul a b s
  | .udiv a b => Sys2Proof.Machine.execUdiv a b s
  | .invert v => Sys2Proof.Machine.execInvert v s
  | .mulinv a b => Sys2Proof.Machine.execMulinv a b s
  | .umulinv a b => Sys2Proof.Machine.execUmulinv a b s
  | .gethigh a => Sys2Proof.Machine.execGethigh a s
  | .getlow a => Sys2Proof.Machine.execGetlow a s
  | .getint a => Sys2Proof.Machine.execGetint a s
  | .round a => Sys2Proof.Machine.execRound a s
  | .getdouble a => Sys2Proof.Machine.execGetdouble a s

end Sys2Proof.Machine
end

