-- ==== Sys2Proof/Machine/Step.lean ====
section
/-! DEFINITION. The step (R39, R115, R117, R130): one atomic step reads what the host drives and `FLT`, and answers. -/

namespace Sys2Proof.Machine

/-- One step. Reset first (R130); with no command accepted the unit waits (R120 (e)); a command accepted by a halted
unit is answered with the latched code before anything is decoded (R39, R117); a reserved opcode raises
`IllegalCommand` (R34); else the decoded command executes. -/
def step (s : State) : Host.Outcome State Fault Refusal :=
  if s.rst then .next s.advance.applyReset
  else
    match s.accepted with
    | none => .next s.advance
    | some c =>
      if s.halted then .next s.advance.answerHalted
      else
        match decode c with
        | .ok i => exec i s.advance
        | .error _ => .next (s.advance.raise .illegalCommand)

/-- `s` with a host that next presents the command whose opcode-table bits are `w`, with `rst` low: the unit fetches
nothing (R14), so this stands for the host presenting a command (assumption 1). -/
def State.withFetchWord (s : State) (nbits w : Nat) : State :=
  { s with host := ⟨false, some (commandOfTableWord nbits w)⟩ :: s.host }

end Sys2Proof.Machine
end

