-- ==== Sys2Proof/Machine/Listing.lean ====
section
/-! DEFINITION. The host's listing (R36, R37): lines, host temporaries, pseudo-instructions, and what a line makes the
host drive and receive. All of it is the host's; the unit keeps none of it (R10, R11). -/

namespace Sys2Proof.Machine

/-- A source of a listing line (R36). -/
inductive Source where
  /-- A host temporary `t<n>`. -/
  | temp (n : Nat)
  /-- A hexadecimal literal `#0x...`. -/
  | word (w : Word)
  /-- A decimal integer literal `#n`, for an integer-typed operand. -/
  | int (n : Int)
  /-- A floating-point literal `#x f`, as the nearest binary64 pattern it means (assumption 15). -/
  | f64 (d : BitVec 64)
deriving DecidableEq, Repr

/-- A listing line (R36): a command, or `RESET`. -/
inductive Line where
  | cmd (dst : Nat) (m : Mnemonic) (a b : Option Source)
  | reset
deriving DecidableEq, Repr

/-- The host's temporaries, latest value first. -/
abbrev Temps := List (Nat × Word)

/-- The word a temporary holds; one never written holds 0 (assumption 15). -/
def Temps.read (ts : Temps) (n : Nat) : Word := (ts.lookup n).getD 0

/-- A temporary receives a word. -/
def Temps.write (ts : Temps) (n : Nat) (w : Word) : Temps := (n, w) :: ts

/-- The bus value of a source for an operand of `k` bits (R36): a temporary's word whole; a literal in the low `k` bits,
zeros above. -/
def Source.bus (ts : Temps) (k : Nat) : Source → Word
  | .temp n => ts.read n
  | .word w => BitVec.ofNat 128 (w.toNat % 2 ^ k)
  | .int n => BitVec.ofNat 128 ((n % 2 ^ k).toNat)
  | .f64 d => BitVec.ofNat 128 (d.toNat % 2 ^ k)

/-- The bus value where a line gives no source: zeros, every bit being ignored (R36). -/
def optionBus (ts : Temps) (k : Nat) : Option Source → Word
  | some src => src.bus ts k
  | none => 0

/-- What the host drives for a line (R36): the triple `(op, a, b)`, or `rst`. -/
def Line.drive (ts : Temps) : Line → Drive
  | .cmd _ m a b => ⟨false, some ⟨m.opcode, optionBus ts m.aBits a, optionBus ts m.bBits b⟩⟩
  | .reset => ⟨true, none⟩

/-- What the host stores after the response (R36): `<dst>` receives `res`; a response without a result is no value. -/
def Line.receive (ts : Temps) (s : State) : Line → Temps
  | .cmd dst _ _ _ =>
    match s.rspRes with
    | some w => ts.write dst w
    | none => ts
  | .reset => ts

/-- The host runs a listing line by line (R10): it drives, the unit steps, it receives. -/
def runListing : List Line → Temps → State → Host.Outcome (Temps × State) Fault Refusal
  | [], ts, s => .next (ts, s)
  | l :: rest, ts, s =>
    match step { s with host := l.drive ts :: s.host } with
    | .next t => runListing rest (l.receive ts t) t
    | .fault r => .fault r
    | .refused r => .refused r

/-- The pseudo-instructions of R37. -/
inductive Pseudo where
  /-- `x += y`. -/
  | adda (x : Nat) (y : Source)
  /-- `x -= y`. -/
  | suba (x : Nat) (y : Source)
  /-- `x *= y`. -/
  | mula (x : Nat) (y : Source)
  /-- `x /= y`. -/
  | diva (x : Nat) (y : Source)
  /-- `x = FROM #n`, for `-2^63 ≤ n < 2^63`. -/
  | from (x : Nat) (n : Int)
  /-- `x = FROM #h, #l`. -/
  | fromPair (x : Nat) (h l : Source)
deriving DecidableEq, Repr

/-- The one line a pseudo-instruction expands to (R37). -/
def Pseudo.expand : Pseudo → Line
  | .adda x y => .cmd x .add (some (.temp x)) (some y)
  | .suba x y => .cmd x .sub (some (.temp x)) (some y)
  | .mula x y => .cmd x .mul (some (.temp x)) (some y)
  | .diva x y => .cmd x .div (some (.temp x)) (some y)
  | .from x n => .cmd x .froms64 (some (.int n)) none
  | .fromPair x h l => .cmd x .fromhilo (some h) (some l)

end Sys2Proof.Machine
end

