-- ==== Sys2Proof/Safety.lean ====
section
/-! DEFINITION. The terms claims are stated in: an opcode decodes to a command, a command completes with a word, a
command raises a fault, a legal state, a safe run. The second and the third fix the WHOLE next state, so they are
frames as well. -/

namespace Sys2Proof.Machine

/-- The opcode `op` is the command `f`, which reads off the buses `a` and `b` what `f` shows, whatever they hold (R31, R33). -/
def Decodes (op : BitVec 8) (f : Word → Word → Instr) : Prop := ∀ a b : Word, decode ⟨op, a, b⟩ = .ok (f a b)

/-- The command delivers the result `w` and changes nothing else: `FLT` and the host's drives stay (R32, R39). -/
def Completes (i : Instr) (s : State) (w : Word) : Prop := exec i s = .next { s with rsp := some (.ok w) }

/-- The command raises the fault with code `c`: `FLT` and the response take the code, nothing else changes (R115). -/
def Raises (i : Instr) (s : State) (c : BitVec 3) : Prop := exec i s = .next { s with flt := c, rsp := some (.fault c) }

/-- `FLT` holds 0 to 4 (R12), and a response on the port agrees with it: a result only with `FLT = 0`, a fault code only
nonzero and equal to `FLT` (R18, R32). -/
def State.legal (s : State) : Bool :=
  legalFlt s.flt &&
    match s.rsp with
    | none => true
    | some (.ok _) => s.flt == 0
    | some (.fault c) => c == s.flt && c != 0

/-- A safe run of `n` steps: the unit is running before, between and after them (R12), so no command faults. -/
def safeRun : Nat → State → Prop
  | 0, s => s.flt = 0
  | n + 1, s => s.flt = 0 ∧ ∃ t, step s = .next t ∧ safeRun n t

end Sys2Proof.Machine
end

