-- ==== Sys2Proof/Certificates/Slice0/Obligations.lean ====
section
/-! DEFINITION. The statements about the machine. `Completes i s w` and `Raises i s c` (Safety.lean) each fix the whole
next state, so every statement built on them says what changes AND that nothing else does: `FLT`, the host's
drives and the response port are all the state there is. -/

open Sys2Proof Sys2Proof.Machine

/-! Reset, the fault register, the step. -/

/-- R19: after reset `FLT = 0`, the unit is not halted and no response is valid. -/
def Obligations.ResetLeavesUnitRunning : Prop :=
  State.reset.flt = 0 ∧ State.reset.halted = false ∧ State.reset.rspValid = false ∧ State.reset.rspRes = none ∧
    State.reset.rspFlt = none

/-- R130: from every state, halted or not, with a command presented or not, `rst` gives the one reset state (the host's
later drives apart) with no response and nothing accepted; and nothing else clears a nonzero `FLT`. -/
def Obligations.ResetIsTheOnlyExitFromHalt : Prop :=
  (∀ (s : State) (c : Option Command) (rest : List Drive), s.host = ⟨true, c⟩ :: rest →
    s.cmdReady = false ∧ s.accepted = none ∧ step s = .next { State.reset with host := rest }) ∧
  ∀ s t : State, step s = .next t → s.flt ≠ 0 → t.flt = 0 → s.rst = true

/-- The legal states (a legal `FLT`, a response that agrees with it) are kept by every step. -/
def Obligations.LegalStateKeptByEveryStep : Prop :=
  ∀ s t : State, s.legal = true → step s = .next t → t.legal = true

/-- The reset state is legal. -/
def Obligations.ResetStateIsLegal : Prop := State.reset.legal = true

/-- R12: the codes; `FLT` is 0 at reset, is cleared by `rst`, is read by every response and by `halted`; it changes only when
`rst` clears it, or when a command of a running unit faults and latches the code its response carries, one of 1 to 4. -/
def Obligations.FaultRegisterWrittenOnlyByFaultOrReset : Prop :=
  State.reset.flt = 0 ∧ Cause.arithmeticOverflow.code = 1 ∧ Cause.invalidDivisor.code = 2 ∧
  Cause.unrepresentableConversion.code = 3 ∧ Cause.illegalCommand.code = 4 ∧
  ∀ s t : State, step s = .next t →
    (t.halted = true ↔ t.flt ≠ 0) ∧ (t.rspValid = true → t.rspFlt = some t.flt) ∧ (s.rst = true → t.flt = 0) ∧
    (t.flt ≠ s.flt →
      (s.rst = true ∧ t.flt = 0) ∨
      (s.rst = false ∧ s.flt = 0 ∧ (∃ c, s.accepted = some c) ∧ t.rsp = some (.fault t.flt) ∧
        1 ≤ t.flt.toNat ∧ t.flt.toNat ≤ 4))

/-- R132's last sentence, over whole command sequences: from any state, any number of steps has exactly one outcome, and it
is a next state. -/
def Obligations.EveryRunCompletes : Prop := ∀ (n : Nat) (s : State), ∃ t : State, core.run n s = .next t

/-- A command presented with `rst` low that decodes to `i` runs `i` on the state with the host moved on and the response
port cleared. In a running unit this is R39's execution; in a halted one R39 decodes and executes nothing, and the equation
holds because `exec` itself answers the latched code there, which is the model's choice (assumption 9). -/
def Obligations.StepRunsDecodedCommand : Prop :=
  ∀ (s : State) (c : Command) (rest : List Drive) (i : Instr), s.host = ⟨false, some c⟩ :: rest → decode c = .ok i →
    step s = exec i { s with host := rest, rsp := none }

/-- R34: the reserved opcodes are the five listed ranges, 225 in all; in a running unit each raises `IllegalCommand` whatever
the operands; every other opcode decodes whatever the operands. -/
def Obligations.ReservedOpcodesRaiseIllegalCommand : Prop :=
  let reserved := fun n : Nat =>
    (0x0B ≤ n ∧ n ≤ 0x0F) ∨ (0x18 ≤ n ∧ n ≤ 0x1F) ∨ (0x24 ≤ n ∧ n ≤ 0x2F) ∨ (0x33 ≤ n ∧ n ≤ 0x3F) ∨ (0x45 ≤ n ∧ n ≤ 0xFF)
  ((List.range 256).filter fun n => decide (reserved n)).length = 225 ∧
  (∀ (s : State) (c : Command) (rest : List Drive), s.flt = 0 → s.host = ⟨false, some c⟩ :: rest →
    reserved c.op.toNat → step s = .next { flt := 4, host := rest, rsp := some (.fault 4) }) ∧
  ∀ c : Command, ¬reserved c.op.toNat → ∃ i, decode c = .ok i

/-- R117: a halted unit accepts every command and answers it with the latched code and no result; `FLT` stays. -/
def Obligations.HaltedUnitAnswersLatchedCode : Prop :=
  ∀ (s : State) (c : Command) (rest : List Drive), s.flt ≠ 0 → s.host = ⟨false, some c⟩ :: rest →
    s.cmdReady = true ∧ s.accepted = some c ∧
    step s = .next { s with host := rest, rsp := some (.fault s.flt) }

/-- Sticky until reset, over whole runs: as long as `rst` stays low, a halted unit keeps its cause and delivers no result. -/
def Obligations.HaltedUntilReset : Prop :=
  ∀ (n : Nat) (s : State), s.flt ≠ 0 → (∀ d ∈ s.host.take n, d.rst = false) →
    ∃ t : State, core.run n s = .next t ∧ t.flt = s.flt ∧ t.host = s.host.drop n ∧ (0 < n → t.rspRes = none)

/-- Which steps of a running unit are safe: with `rst` high, with no command accepted, or with an accepted command that
decodes and completes; and which are not: exactly those that accept a command with a reserved opcode, or one that decodes
and raises a fault. -/
def Obligations.SafeStepsOfRunningUnit : Prop :=
  ∀ s : State, s.flt = 0 →
    (safeRun 1 s ↔
      s.rst = true ∨ s.accepted = none ∨
        ∃ (c : Command) (i : Instr) (w : Word), s.accepted = some c ∧ decode c = .ok i ∧ Completes i s.advance w) ∧
    (¬safeRun 1 s ↔
      ∃ c : Command, s.accepted = some c ∧
        (reservedOpcode c.op = true ∨
          ∃ (i : Instr) (f : BitVec 3), decode c = .ok i ∧ 1 ≤ f.toNat ∧ f.toNat ≤ 4 ∧ Raises i s.advance f))

/-- The meaning of every command, met with a halted unit, executes nothing (R117 said of `exec`). -/
def Obligations.HaltedMeaningsExecuteNothing : Prop :=
  ∀ (i : Instr) (s : State), s.flt ≠ 0 → exec i s = .next { s with rsp := some (.fault s.flt) }

/-- R11, R25: the whole of a step is a function of `FLT` and of what the host drives; the last response has no say. -/
def Obligations.LastResponseNeverObserved : Prop :=
  ∀ (n : Nat) (s s' : State), 0 < n → s.flt = s'.flt → s.host = s'.host → core.run n s = core.run n s'

/-- R25 (a): after any command sequence that has left the unit running, a command is answered as it is right after reset. -/
def Obligations.ResultIndependentOfHistory : Prop :=
  ∀ (cs : List Command) (c : Command) (t : State),
    core.run cs.length { State.reset with host := (cs ++ [c]).map fun x => ⟨false, some x⟩ } = .next t → t.flt = 0 →
    step t = step { State.reset with host := [⟨false, some c⟩] }

/-- R18: each step that accepts a command presents a response, and its `rsp_flt` is `FLT` after the command. That a step which
accepts none leaves no response on the port is the model's reading of R18 and R120 (e) (assumption 7). -/
def Obligations.OneResponsePerAcceptedCommand : Prop :=
  ∀ s t : State, step s = .next t →
    (t.rspValid = true ↔ ∃ c, s.accepted = some c) ∧ (t.rspValid = true → t.rspFlt = some t.flt) ∧
    (t.rspRes.isSome = true ↔ t.rspFlt = some 0)

/-- R120 (e): with `rst` low and no command presented, the unit waits: `FLT` stays and no response is valid. -/
def Obligations.IdleUnitWaits : Prop :=
  (∀ (s : State) (rest : List Drive), s.host = ⟨false, none⟩ :: rest →
    step s = .next { s with host := rest, rsp := none }) ∧
  ∀ s : State, s.host = [] → step s = .next { s with rsp := none }

/-- R110, R111, R115 together: in a running unit every command completes or raises one fault of its row of the fault table;
commands outside the table always complete. -/
def Obligations.FaultClassesPerCommand : Prop :=
  ∀ (i : Instr) (s : State), s.flt = 0 →
    match i with
    | .umul _ _ | .mul _ _ => (∃ w, Completes i s w) ∨ Raises i s 1
    | .udiv _ _ | .div _ _ => (∃ w, Completes i s w) ∨ Raises i s 1 ∨ Raises i s 2
    | .invert _ | .umulinv _ _ | .mulinv _ _ => (∃ w, Completes i s w) ∨ Raises i s 2
    | .fromf64 _ => (∃ w, Completes i s w) ∨ Raises i s 3
    | _ => ∃ w, Completes i s w

/-! Encoding. -/

/-- Decoding the listing word of an encoded command gives the command back, for every command and every operand. -/
def Obligations.DecodeInvertsEncode : Prop :=
  ∀ i : Instr, decode (Command.ofBits (encode i).toBits) = .ok i

/-- A legal command with zeros in its ignored bits is the encoding of what it decodes to: no two such commands decode alike. -/
def Obligations.EncodeInvertsDecode : Prop :=
  ∀ (c : Command) (m : Mnemonic), mnemonicOf c.op = some m → c.ignoredZero m = true →
    ∃ i, decode c = .ok i ∧ encode i = c

/-- R31: two commands with one opcode that agree in the bits R31 names step alike, whatever their other bits hold. -/
def Obligations.IgnoredBitsHaveNoEffect : Prop :=
  ∀ (s : State) (c c' : Command) (m : Mnemonic) (rest : List Drive), c.op = c'.op → mnemonicOf c.op = some m →
    c.a.toNat % 2 ^ m.aBits = c'.a.toNat % 2 ^ m.aBits → c.b.toNat % 2 ^ m.bBits = c'.b.toNat % 2 ^ m.bBits →
    step { s with host := ⟨false, some c⟩ :: rest } = step { s with host := ⟨false, some c'⟩ :: rest }

/-- A few words written out from R30 and R33, one per family, and two reserved opcodes. -/
def Obligations.SampleWordsDecode : Prop :=
  decodeTableWord 8 0x00 = some .zero ∧
  decodeTableWord 264 (0x80 * 2 ^ 136 + 0x01) = some (.froms8 0x80) ∧
  decodeTableWord 264 (0xC004000000000000 * 2 ^ 136 + 0x0A) = some (.fromf64 0xC004000000000000) ∧
  decodeTableWord 264 (5 * 2 ^ 136 + 7 * 2 ^ 8 + 0x11) = some (.sub 5 7) ∧
  decodeTableWord 264 (5 * 2 ^ 136 + 7 * 2 ^ 8 + 0x21) = some (.div 5 7) ∧
  decodeTableWord 264 (5 * 2 ^ 136 + 7 * 2 ^ 8 + 0x31) = some (.mulinv 5 7) ∧
  decodeTableWord 264 (5 * 2 ^ 136 + 7 * 2 ^ 8 + 0x43) = some (.round 5) ∧
  decodeTableWord 8 0x0B = none ∧ decodeTableWord 8 0xFF = none

/-- R31 and R33, row by row: each opcode, and the bits of the buses its command reads. -/
def Obligations.OpcodeMapReadsOperandSlices : Prop :=
  Decodes 0x00 (fun _ _ => .zero) ∧
  Decodes 0x01 (fun a _ => .froms8 (a.extractLsb' 0 8)) ∧ Decodes 0x02 (fun a _ => .froms16 (a.extractLsb' 0 16)) ∧
  Decodes 0x03 (fun a _ => .froms32 (a.extractLsb' 0 32)) ∧ Decodes 0x04 (fun a _ => .froms64 (a.extractLsb' 0 64)) ∧
  Decodes 0x05 (fun a _ => .fromu8 (a.extractLsb' 0 8)) ∧ Decodes 0x06 (fun a _ => .fromu16 (a.extractLsb' 0 16)) ∧
  Decodes 0x07 (fun a _ => .fromu32 (a.extractLsb' 0 32)) ∧ Decodes 0x08 (fun a _ => .fromu64 (a.extractLsb' 0 64)) ∧
  Decodes 0x09 (fun a b => .fromhilo (a.extractLsb' 0 64) (b.extractLsb' 0 64)) ∧
  Decodes 0x0A (fun a _ => .fromf64 (a.extractLsb' 0 64)) ∧
  Decodes 0x10 .add ∧ Decodes 0x11 .sub ∧ Decodes 0x12 (fun a _ => .neg a) ∧ Decodes 0x13 (fun a _ => .pos a) ∧
  Decodes 0x14 .eq ∧ Decodes 0x15 .lt ∧ Decodes 0x16 .gt ∧ Decodes 0x17 (fun a _ => .tobool a) ∧
  Decodes 0x20 .mul ∧ Decodes 0x21 .div ∧ Decodes 0x22 .umul ∧ Decodes 0x23 .udiv ∧
  Decodes 0x30 (fun a _ => .invert (a.extractLsb' 0 64)) ∧ Decodes 0x31 .mulinv ∧ Decodes 0x32 .umulinv ∧
  Decodes 0x40 (fun a _ => .gethigh a) ∧ Decodes 0x41 (fun a _ => .getlow a) ∧ Decodes 0x42 (fun a _ => .getint a) ∧
  Decodes 0x43 (fun a _ => .round a) ∧ Decodes 0x44 (fun a _ => .getdouble a)

/-- R37: `x = FROM #n`, for every `n` it admits, is one command, and it delivers `from(n)`. -/
def Obligations.ListingFromDeliversInteger : Prop :=
  ∀ (s : State) (ts : Temps) (x : Nat) (n : Int), s.flt = 0 → -2 ^ 63 ≤ n → n < 2 ^ 63 →
    ∃ t, step { s with host := (Pseudo.from x n).expand.drive ts :: s.host } = .next t ∧
      t = { s with rsp := some (.ok (Word.from n)) } ∧
      ((Pseudo.from x n).expand.receive ts t).read x = Word.from n

/-! Constructors. -/

/-- R70 to R77: the default value and the integers shifted left by 64, with the words the rules write out and their values. -/
def Obligations.IntegerConstructorsAreExact : Prop :=
  ∀ s : State, s.flt = 0 →
    (Decodes 0x00 (fun _ _ => .zero) ∧ Completes .zero s 0) ∧
    (Decodes 0x01 (fun a _ => .froms8 (a.extractLsb' 0 8)) ∧ ∀ n : BitVec 8,
      Completes (.froms8 n) s (n.signExtend 64 ++ 0#64) ∧ Word.val (n.signExtend 64 ++ 0#64) = n.toInt) ∧
    (Decodes 0x02 (fun a _ => .froms16 (a.extractLsb' 0 16)) ∧ ∀ n : BitVec 16,
      Completes (.froms16 n) s (n.signExtend 64 ++ 0#64) ∧ Word.val (n.signExtend 64 ++ 0#64) = n.toInt) ∧
    (Decodes 0x03 (fun a _ => .froms32 (a.extractLsb' 0 32)) ∧ ∀ n : BitVec 32,
      Completes (.froms32 n) s (n.signExtend 64 ++ 0#64) ∧ Word.val (n.signExtend 64 ++ 0#64) = n.toInt) ∧
    (Decodes 0x04 (fun a _ => .froms64 (a.extractLsb' 0 64)) ∧ ∀ n : BitVec 64,
      Completes (.froms64 n) s (n ++ 0#64) ∧ Word.val (n ++ 0#64) = n.toInt) ∧
    (Decodes 0x05 (fun a _ => .fromu8 (a.extractLsb' 0 8)) ∧ ∀ n : BitVec 8,
      Completes (.fromu8 n) s (n.setWidth 64 ++ 0#64) ∧ Word.val (n.setWidth 64 ++ 0#64) = n.toNat) ∧
    (Decodes 0x06 (fun a _ => .fromu16 (a.extractLsb' 0 16)) ∧ ∀ n : BitVec 16,
      Completes (.fromu16 n) s (n.setWidth 64 ++ 0#64) ∧ Word.val (n.setWidth 64 ++ 0#64) = n.toNat) ∧
    (Decodes 0x07 (fun a _ => .fromu32 (a.extractLsb' 0 32)) ∧ ∀ n : BitVec 32,
      Completes (.fromu32 n) s (n.setWidth 64 ++ 0#64) ∧ Word.val (n.setWidth 64 ++ 0#64) = n.toNat)

/-- R78: `FROMU64` delivers the bits of `FROMS64`; exact below `2^63`, and `n - 2^64` from `2^63` on, with no fault. -/
def Obligations.FromU64ReadsNegativeFromTwoPow63 : Prop :=
  Decodes 0x08 (fun a _ => .fromu64 (a.extractLsb' 0 64)) ∧
  ∀ (s : State) (n : BitVec 64), s.flt = 0 →
    Completes (.fromu64 n) s (n ++ 0#64) ∧ Completes (.froms64 n) s (n ++ 0#64) ∧
    Word.val (n ++ 0#64) = if n.toNat < 2 ^ 63 then (n.toNat : ℚ) else (n.toNat : ℚ) - 2 ^ 64

/-- R79: the pair is composed limb by limb, and its value is the signed integer part plus the fraction. -/
def Obligations.FromHiLoComposesLimbs : Prop :=
  Decodes 0x09 (fun a b => .fromhilo (a.extractLsb' 0 64) (b.extractLsb' 0 64)) ∧
  ∀ (s : State) (h l : Limb), s.flt = 0 →
    Completes (.fromhilo h l) s (h ++ l) ∧ Word.val (h ++ l) = (h.toInt : ℚ) + (l.toNat : ℚ) / 2 ^ 64

/-- R80: infinities, not-a-numbers, `x ≥ 2^63` and `x < -2^63` fault; else the exact split, the fraction scaled and rounded
half up, the carry, and the sign. -/
def Obligations.FromF64SplitsScalesAndRounds : Prop :=
  Decodes 0x0A (fun a _ => .fromf64 (a.extractLsb' 0 64)) ∧
  ∀ (s : State) (d : BitVec 64), s.flt = 0 →
    let x : ℚ := F64.magnitude d
    let fhi : ℕ := ⌊x⌋₊
    let l : ℕ := ⌊(x - fhi) * 2 ^ 64 + 1 / 2⌋₊
    let w : ℕ := if l = 2 ^ 64 then (fhi + 1) * 2 ^ 64 else fhi * 2 ^ 64 + l
    if F64.exponent d = 2047 ∨ x > 2 ^ 63 ∨ (x = 2 ^ 63 ∧ F64.sign d = false) then Raises (.fromf64 d) s 3
    else
      Completes (.fromf64 d) s
        (if F64.sign d = true ∧ x ≠ 0 then -BitVec.ofNat 128 w else BitVec.ofNat 128 w)

/-- R80 in the closed form of R81 (the spec's own inference, marked derived there): infinities, not-a-numbers, `x ≥ 2^63` and
`x < -2^63` fault; every other pattern delivers `|x| * 2^64` rounded to nearest, ties upward, with the sign of `x`. -/
def Obligations.FromF64RoundsMagnitudeHalfUp : Prop :=
  ∀ (s : State) (d : BitVec 64), s.flt = 0 →
    if F64.exponent d = 2047 ∨ F64.magnitude d > 2 ^ 63 ∨ (F64.magnitude d = 2 ^ 63 ∧ F64.sign d = false) then
      Raises (.fromf64 d) s 3
    else
      ∃ w : Word, Completes (.fromf64 d) s w ∧
        w.toInt = (if F64.sign d then -1 else 1) * ⌊F64.magnitude d * 2 ^ 64 + 1 / 2⌋

/-- R80 (a), (c): an accepted input of magnitude at least `2^(-12)`, or 0 (either zero), converts exactly; `-2^63` is
accepted, `+2^63` is not. -/
def Obligations.FromF64ExactFromTwoPowMinus12 : Prop :=
  ∀ (s : State) (d : BitVec 64), s.flt = 0 → F64.exponent d ≠ 2047 →
    (F64.magnitude d = 0 ∨ (1 : ℚ) / 2 ^ 12 ≤ F64.magnitude d) →
    (F64.magnitude d < 2 ^ 63 ∨ (F64.magnitude d = 2 ^ 63 ∧ F64.sign d = true)) →
    ∃ w : Word, Completes (.fromf64 d) s w ∧ Word.val w = F64.value d

/-! Facade operators. -/

/-- R100, R101: sum and difference modulo `2^128`, the exact value wherever it fits, and no fault anywhere. -/
def Obligations.AddSubWrapSilently : Prop :=
  Decodes 0x10 .add ∧ Decodes 0x11 .sub ∧
  ∀ (s : State) (a b : Word), s.flt = 0 →
    (∃ w : Word, Completes (.add a b) s w ∧ w.toNat = (a.toNat + b.toNat) % 2 ^ 128 ∧
      (-2 ^ 127 ≤ a.toInt + b.toInt → a.toInt + b.toInt < 2 ^ 127 → w.toInt = a.toInt + b.toInt)) ∧
    ∃ w : Word, Completes (.sub a b) s w ∧ (w.toNat : Int) = ((a.toNat : Int) - b.toNat) % 2 ^ 128 ∧
      (-2 ^ 127 ≤ a.toInt - b.toInt → a.toInt - b.toInt < 2 ^ 127 → w.toInt = a.toInt - b.toInt)

/-- R102, R103: two's-complement negation, exact but at `MIN`, which it leaves as it is; and the identity. -/
def Obligations.NegAndPosAreUnchecked : Prop :=
  Decodes 0x12 (fun a _ => .neg a) ∧ Decodes 0x13 (fun a _ => .pos a) ∧
  ∀ (s : State) (a : Word), s.flt = 0 →
    (∃ w : Word, Completes (.neg a) s w ∧ (w.toNat : Int) = (-(a.toNat : Int)) % 2 ^ 128 ∧
      (a.toInt ≠ -2 ^ 127 → w.toInt = -a.toInt) ∧ (a.toInt = -2 ^ 127 → w = a) ∧ Completes (.neg w) s a) ∧
    Completes (.pos a) s a

/-- R104 to R107: the comparisons are signed comparisons of the words, delivered in `res[0]` with zeros above; `EQ` is bit
equality; `TOBOOL` is nonzero. -/
def Obligations.ComparisonsAreSignedAndTotal : Prop :=
  Decodes 0x14 .eq ∧ Decodes 0x15 .lt ∧ Decodes 0x16 .gt ∧ Decodes 0x17 (fun a _ => .tobool a) ∧
  ∀ (s : State) (a b : Word), s.flt = 0 →
    Completes (.eq a b) s (if a = b then 1 else 0) ∧ (a = b ↔ a.toInt = b.toInt) ∧
    Completes (.lt a b) s (if a.toInt < b.toInt then 1 else 0) ∧
    Completes (.gt a b) s (if b.toInt < a.toInt then 1 else 0) ∧
    Completes (.tobool a) s (if a.toNat = 0 then 0 else 1) ∧ Completes (.eq a 0) s (if a.toNat = 0 then 1 else 0)

/-- R101's, R106's and R107's remarks (the spec's own inferences): `SUB(a, b) = ADD(a, NEG(b))`; exactly one of `EQ`, `LT`,
`GT` is 1; `TOBOOL(a) = 1 - EQ(a, 0)`. -/
def Obligations.FacadeLawsAgree : Prop :=
  ∀ (s : State) (a b : Word), s.flt = 0 →
    (∃ n d : Word, Completes (.neg b) s n ∧ Completes (.add a n) s d ∧ Completes (.sub a b) s d) ∧
    (∃ e l g : Word, Completes (.eq a b) s e ∧ Completes (.lt a b) s l ∧ Completes (.gt a b) s g ∧
      e.toNat + l.toNat + g.toNat = 1) ∧
    ∃ z t : Word, Completes (.eq a 0) s z ∧ Completes (.tobool a) s t ∧ t = 1 - z

/-! Multiply. -/

/-- R40: the outputs are the absolute values of the two signed words, at most `2^127` (reached at `MIN`), and whether their
signs differ; zero has sign 0. -/
def Obligations.NormalizerYieldsMagnitudes : Prop :=
  ∀ a b : Word,
    normalizeSigns a b = ⟨a.toInt.natAbs, b.toInt.natAbs, decide (a.toInt < 0) != decide (b.toInt < 0)⟩ ∧
    (normalizeSigns a b).ua ≤ 2 ^ 127 ∧ (normalizeSigns a b).ub ≤ 2 ^ 127 ∧
    ((normalizeSigns a b).ua = 2 ^ 127 ↔ a = Word.min) ∧ absWord a = a.toInt.natAbs

/-- R41: on return the word has exactly the signed magnitude; the fault is raised exactly where no word has it. -/
def Obligations.ApplySignIsExactOrFaults : Prop :=
  ∀ (m : Nat) (negative : Bool), m < 2 ^ 128 →
    if m > 2 ^ 127 ∨ (m = 2 ^ 127 ∧ negative = false) then applySign m negative = .error .arithmeticOverflow
    else ∃ w : Word, applySign m negative = .ok w ∧ w.toInt = if negative then -(m : Int) else (m : Int)

/-- R42: the limb algorithm with its two checks, in the rule's own terms. -/
def Obligations.UmulFollowsLimbAlgorithm : Prop :=
  Decodes 0x22 .umul ∧
  ∀ (s : State) (a b : Word), s.flt = 0 →
    let al : Nat := a.toNat % 2 ^ 64
    let ah : Nat := a.toNat / 2 ^ 64
    let bl : Nat := b.toNat % 2 ^ 64
    let bh : Nat := b.toNat / 2 ^ 64
    let sum : Nat := al * bl / 2 ^ 64 + (ah * bl + al * bh) + ah * bh * 2 ^ 64
    if ah * bh > 2 ^ 63 ∨ sum ≥ 2 ^ 128 then Raises (.umul a b) s 1 else Completes (.umul a b) s (BitVec.ofNat 128 sum)

/-- R44's closed form (the spec's own inference, marked derived there): the middle 128 bits of the 256-bit product. -/
def Obligations.UmulDeliversMiddleOfProduct : Prop :=
  ∀ (s : State) (a b : Word), s.flt = 0 →
    let p : Nat := a.toNat * b.toNat / 2 ^ 64
    if a.toNat / 2 ^ 64 * (b.toNat / 2 ^ 64) > 2 ^ 63 ∨ p ≥ 2 ^ 128 then Raises (.umul a b) s 1
    else ∃ w : Word, Completes (.umul a b) s w ∧ w.toNat = p

/-- R43: the signed product of the magnitudes, truncated toward zero, or `ArithmeticOverflow` exactly where the unsigned
core's first check fires or the signed range has no word for it. -/
def Obligations.MulIsTruncatedSignedProduct : Prop :=
  Decodes 0x20 .mul ∧
  ∀ (s : State) (a b : Word), s.flt = 0 →
    let ua : Nat := a.toInt.natAbs
    let ub : Nat := b.toInt.natAbs
    let p : Nat := ua * ub / 2 ^ 64
    let negative := decide (a.toInt < 0) != decide (b.toInt < 0)
    if ua / 2 ^ 64 * (ub / 2 ^ 64) > 2 ^ 63 ∨ p > 2 ^ 127 ∨ (p = 2 ^ 127 ∧ negative = false) then
      Raises (.mul a b) s 1
    else ∃ w : Word, Completes (.mul a b) s w ∧ w.toInt = if negative then -(p : Int) else (p : Int)

/-- R45's laws (the spec's own inference from R43): identity and zero for every word, and the overflow boundary. -/
def Obligations.MulIdentityZeroAndBoundary : Prop :=
  ∀ (s : State) (x y : Word), s.flt = 0 →
    Completes (.mul x Word.one) s x ∧ Completes (.mul Word.one x) s x ∧
    Completes (.mul x 0) s 0 ∧ Completes (.mul 0 x) s 0 ∧
    (Word.hi x = 0x4000000000000000 → Word.hi y = 0x4000000000000000 → Raises (.mul x y) s 1)

/-- R43 (g) (the spec's own inference): negating a factor negates the product, or exactly one side faults, where the
product is `MIN`. -/
def Obligations.MulSignLaw : Prop :=
  ∀ (s : State) (a b : Word), s.flt = 0 → b ≠ 0 → b ≠ Word.min →
    (∀ w : Word, Completes (.mul a b) s w → w ≠ Word.min → Completes (.mul a (-b)) s (-w)) ∧
    (Completes (.mul a b) s Word.min → Raises (.mul a (-b)) s 1)

/-! Divide. -/

/-- R50: the zero test first, then the overflow test on the native quotient; every other pair of operands completes. -/
def Obligations.UdivFaultsOrCompletes : Prop :=
  Decodes 0x23 .udiv ∧
  ∀ (s : State) (a b : Word), s.flt = 0 →
    if b.toNat = 0 then Raises (.udiv a b) s 2
    else if a.toNat / b.toNat ≥ 2 ^ 64 then Raises (.udiv a b) s 1
    else ∃ w, Completes (.udiv a b) s w

/-- R51 (the spec's own inference, marked derived there): for `b ≤ 2^127`, and for any even `b`, the quotient is the exact one
truncated at the 64th fractional bit. -/
def Obligations.UdivIsExactTruncatedQuotient : Prop :=
  ∀ (s : State) (a b : Word), s.flt = 0 → 0 < b.toNat → (b.toNat ≤ 2 ^ 127 ∨ b.toNat % 2 = 0) →
    a.toNat / b.toNat < 2 ^ 64 →
    ∃ w : Word, Completes (.udiv a b) s w ∧ w.toNat = a.toNat * 2 ^ 64 / b.toNat

/-- R50 (d): an odd denominator above `2^127` where the algorithm, which is normative, departs from the exact quotient. -/
def Obligations.UdivInexactAboveTwoPow127 : Prop :=
  ∀ s : State, s.flt = 0 →
    Completes (.udiv (BitVec.ofNat 128 (2 ^ 127)) (BitVec.ofNat 128 (2 ^ 127 + 1))) s (BitVec.ofNat 128 (2 ^ 64)) ∧
    2 ^ 127 * 2 ^ 64 / (2 ^ 127 + 1) = 2 ^ 64 - 1

/-- R52: division by the zero word is `InvalidDivisor` whatever the dividend; else the quotient truncated toward zero, or
`ArithmeticOverflow` exactly where the signed range has no word for it. -/
def Obligations.DivIsTruncatedSignedQuotient : Prop :=
  Decodes 0x21 .div ∧
  ∀ (s : State) (a b : Word), s.flt = 0 →
    let q : Nat := a.toInt.natAbs * 2 ^ 64 / b.toInt.natAbs
    let negative := decide (a.toInt < 0) != decide (b.toInt < 0)
    if b = 0 then Raises (.div a b) s 2
    else if q > 2 ^ 127 ∨ (q = 2 ^ 127 ∧ negative = false) then Raises (.div a b) s 1
    else ∃ w : Word, Completes (.div a b) s w ∧ w.toInt = if negative then -(q : Int) else (q : Int)

/-- R52 (a), (f), (g) and R53's sign laws (the spec's own inferences). -/
def Obligations.DivIdentityAndSignLaws : Prop :=
  ∀ (s : State) (a b : Word), s.flt = 0 →
    Completes (.div a Word.one) s a ∧ (a ≠ 0 → Completes (.div a a) s Word.one) ∧
    (a ≠ Word.min → b ≠ Word.min → ∀ w : Word, Completes (.div a b) s w → Completes (.div (-a) (-b)) s w) ∧
    (a ≠ Word.min → ∀ w : Word, Completes (.div a b) s w → w ≠ Word.min → Completes (.div (-a) b) s (-w))

/-! Reciprocal. -/

/-- R60: the approximate product, its distance from the exact one, its bound; a reciprocal above `2^127` is refused. -/
def Obligations.UmulinvApproximatesFromBelow : Prop :=
  Decodes 0x32 .umulinv ∧
  ∀ (s : State) (a b : Word), s.flt = 0 →
    if b.toNat > 2 ^ 127 then Raises (.umulinv a b) s 2
    else
      ∃ w : Word, Completes (.umulinv a b) s w ∧
        w.toNat = a.toNat / 2 ^ 64 * (b.toNat / 2 ^ 64) +
          (a.toNat / 2 ^ 64 * (b.toNat % 2 ^ 64) + a.toNat % 2 ^ 64 * (b.toNat / 2 ^ 64)) / 2 ^ 64 ∧
        w.toNat ≤ a.toNat * b.toNat / 2 ^ 128 ∧ a.toNat * b.toNat / 2 ^ 128 ≤ w.toNat + 1 ∧ w.toNat < 2 ^ 127

/-- R61 in the closed form of R62 (the spec's own inference): 0 and 1 are refused; else the reciprocal is
`ceil(2^128 / v)`, at most `2^127`. -/
def Obligations.InvertIsCeilingOfReciprocal : Prop :=
  Decodes 0x30 (fun a _ => .invert (a.extractLsb' 0 64)) ∧
  ∀ (s : State) (v : BitVec 64), s.flt = 0 →
    if v.toNat ≤ 1 then Raises (.invert v) s 2
    else ∃ w : Word, Completes (.invert v) s w ∧ (w.toNat : Int) = ⌈(2 : ℚ) ^ 128 / v.toNat⌉ ∧ w.toNat ≤ 2 ^ 127

/-- R63: `UmulByInvert` on the magnitude of `a`, with the sign of `a`; no overflow can happen. -/
def Obligations.MulinvTakesSignOfA : Prop :=
  Decodes 0x31 .mulinv ∧
  ∀ (s : State) (a b : Word), s.flt = 0 →
    if b.toNat > 2 ^ 127 then Raises (.mulinv a b) s 2
    else
      let ua : Nat := a.toInt.natAbs
      let m : Nat := ua / 2 ^ 64 * (b.toNat / 2 ^ 64) +
        (ua / 2 ^ 64 * (b.toNat % 2 ^ 64) + ua % 2 ^ 64 * (b.toNat / 2 ^ 64)) / 2 ^ 64
      ∃ w : Word, Completes (.mulinv a b) s w ∧ w.toInt = (if a.toInt < 0 then -(m : Int) else (m : Int)) ∧ m ≤ 2 ^ 126

/-- R63's bound (the spec's own inference): multiplying by `INVERT(v)` is within one ULP of the truncated quotient by `v`. -/
def Obligations.MulinvWithinOneUlpOfQuotient : Prop :=
  ∀ (s : State) (a : Word) (v : BitVec 64), s.flt = 0 → 1 < v.toNat →
    ∃ r w : Word, Completes (.invert v) s r ∧ Completes (.mulinv a r) s w ∧
      a.toInt.natAbs / v.toNat ≤ w.toInt.natAbs + 1 ∧ w.toInt.natAbs ≤ a.toInt.natAbs / v.toNat + 1

/-- R64 (the spec's own inference): the reciprocal law, exact, unsigned for every divisor and signed below `2^63`. -/
def Obligations.ReciprocalLaw : Prop :=
  ∀ (s : State) (v : BitVec 64), s.flt = 0 → 1 < v.toNat →
    ∃ r : Word, Completes (.invert v) s r ∧ Completes (.umulinv (v ++ 0#64) r) s Word.one ∧
      (v.toNat < 2 ^ 63 → Completes (.mulinv (v ++ 0#64) r) s Word.one)

/-! Extractors. -/

/-- R90: the high limb in `res[63:0]`, zeros above, which read as a signed integer is the floor of the value. -/
def Obligations.GetHighIsFloor : Prop :=
  Decodes 0x40 (fun a _ => .gethigh a) ∧
  ∀ (s : State) (a : Word), s.flt = 0 →
    ∃ h : BitVec 64, Completes (.gethigh a) s (h.setWidth 128) ∧ h = a.extractLsb' 64 64 ∧ h.toInt = ⌊Word.val a⌋

/-- R91: the low limb in `res[63:0]`, zeros above, which is the fraction above the floor; with R79 and R90, the limbs compose
to the word again (that clause is the spec's own inference). -/
def Obligations.GetLowIsFractionAboveFloor : Prop :=
  Decodes 0x41 (fun a _ => .getlow a) ∧
  ∀ (s : State) (a : Word), s.flt = 0 →
    ∃ h l : BitVec 64, Completes (.getlow a) s (l.setWidth 128) ∧ Completes (.gethigh a) s (h.setWidth 128) ∧
      (l.toNat : ℚ) / 2 ^ 64 = Word.val a - ⌊Word.val a⌋ ∧ Completes (.fromhilo h l) s a

/-- R92: truncation toward zero, exact for every word, in `res[63:0]` with zeros above. -/
def Obligations.GetIntTruncatesTowardZero : Prop :=
  Decodes 0x42 (fun a _ => .getint a) ∧
  ∀ (s : State) (a : Word), s.flt = 0 →
    ∃ r : BitVec 64, Completes (.getint a) s (r.setWidth 128) ∧ r.toInt = a.toInt.tdiv (2 ^ 64)

/-- R93: to the nearest integer, ties away from zero; exact but for values from `2^63 - 1/2` on, which wrap to `-2^63`
without a fault. -/
def Obligations.RoundTiesAwayFromZero : Prop :=
  Decodes 0x43 (fun a _ => .round a) ∧
  ∀ (s : State) (a : Word), s.flt = 0 →
    ∃ r : BitVec 64, Completes (.round a) s (r.setWidth 128) ∧
      r.toInt = if Word.val a < 0 then -⌊|Word.val a| + 1 / 2⌋
        else if Word.val a ≥ 2 ^ 63 - 1 / 2 then -2 ^ 63
        else ⌊Word.val a + 1 / 2⌋

/-- R82 (the spec's own inference): the integer round trip, for every 64-bit pattern. -/
def Obligations.IntegerRoundTrip : Prop :=
  ∀ (s : State) (p : BitVec 64), s.flt = 0 →
    ∃ w : Word, Completes (.froms64 p) s w ∧ Completes (.getint w) s (p.setWidth 128) ∧
      Completes (.gethigh w) s (p.setWidth 128) ∧ Completes (.getlow w) s 0

/-- R94, R95: the zero word gives `+0.0`; every other word a normal pattern with its sign, as near to its value as any finite
pattern is, and with an even significand where another is as near. -/
def Obligations.GetDoubleIsNearestTiesToEven : Prop :=
  Decodes 0x44 (fun a _ => .getdouble a) ∧
  ∀ (s : State) (a : Word), s.flt = 0 →
    if a = 0 then Completes (.getdouble a) s 0
    else
      ∃ d : BitVec 64, Completes (.getdouble a) s (d.setWidth 128) ∧ F64.sign d = decide (a.toInt < 0) ∧
        959 ≤ F64.exponent d ∧ F64.exponent d ≤ 1086 ∧
        ∀ e : BitVec 64, F64.exponent e ≠ 2047 →
          |F64.value d - Word.val a| ≤ |F64.value e - Word.val a| ∧
          (|F64.value d - Word.val a| = |F64.value e - Word.val a| → F64.value e ≠ F64.value d →
            F64.fraction d % 2 = 0)

/-- R94 (a): a word whose magnitude has at most 53 significant bits converts exactly. -/
def Obligations.GetDoubleExactTo53Bits : Prop :=
  ∀ (s : State) (a : Word) (q k : Nat), s.flt = 0 → a ≠ 0 → a.toInt.natAbs = q * 2 ^ k → q < 2 ^ 53 →
    ∃ d : BitVec 64, Completes (.getdouble a) s (d.setWidth 128) ∧ F64.value d = Word.val a

/-- R94 (d) (the spec's own inference): an accepted binary64 pattern of magnitude at least `2^(-12)` survives the way in and
out, and either zero comes back as `+0.0`. -/
def Obligations.DoubleRoundTrip : Prop :=
  ∀ (s : State) (d : BitVec 64), s.flt = 0 → F64.exponent d ≠ 2047 →
    (F64.magnitude d = 0 ∨ (1 : ℚ) / 2 ^ 12 ≤ F64.magnitude d) →
    (F64.magnitude d < 2 ^ 63 ∨ (F64.magnitude d = 2 ^ 63 ∧ F64.sign d = true)) →
    ∃ w : Word, Completes (.fromf64 d) s w ∧
      Completes (.getdouble w) s (if F64.magnitude d = 0 then 0 else d.setWidth 128)
end

