-- ==== Sys2Proof/Laws/Decode.lean ====
section
/-! SUPPORT. The opcode map is a bijection between the 31 mnemonics and the opcodes that are not reserved. -/

namespace Sys2Proof

theorem mem_opcodeTable (m : Mnemonic) : m ∈ opcodeTable := by cases m <;> decide

/-- No two rows of the map share an opcode. -/
theorem opcodeTable_pairwise : opcodeTable.Pairwise fun m n => m.opcode ≠ n.opcode := by decide

/-- The look-up inverts the map. -/
@[simp] theorem mnemonicOf_opcode (m : Mnemonic) : mnemonicOf m.opcode = some m := by cases m <;> decide

theorem opcode_of_mnemonicOf {op : BitVec 8} {m : Mnemonic} (h : mnemonicOf op = some m) : m.opcode = op := by
  have := List.find?_some h
  simpa using this

/-- The low slice of a zero-extended operand is the operand. -/
@[simp] theorem lowBits_setWidth {n : Nat} (h : n ≤ 128) (x : BitVec n) : lowBits n (x.setWidth 128) = x := by
  apply BitVec.eq_of_toNat_eq
  have := x.isLt
  have h2 : (2 : Nat) ^ n ≤ 2 ^ 128 := Nat.pow_le_pow_right (by decide) h
  simp only [lowBits, BitVec.toNat_setWidth]
  rw [Nat.mod_eq_of_lt (a := x.toNat) (by omega), Nat.mod_eq_of_lt this]

theorem decode_of_mnemonicOf {c : Command} {m : Mnemonic} (h : mnemonicOf c.op = some m) :
    decode c = .ok (m.build c.a c.b) := by simp [decode, h]

theorem decode_of_reserved {c : Command} (h : mnemonicOf c.op = none) : decode c = .error (.reserved c.op) := by
  simp [decode, h]

/-- The instruction built for a mnemonic stands in that mnemonic's row. -/
@[simp] theorem mnemonic_build (m : Mnemonic) (a b : Word) : (m.build a b).mnemonic = m := by cases m <;> rfl

/-- The listing word loses nothing of the command (R30). -/
@[simp] theorem ofBits_toBits (c : Command) : Command.ofBits c.toBits = c := by
  rcases c with ⟨op, a, b⟩
  simp only [Command.ofBits, Command.toBits, Command.mk.injEq]
  refine ⟨?_, ?_, ?_⟩ <;> ext i hi <;> simp <;> grind

end Sys2Proof
end

