-- ==== Sys2Proof/Laws/State.lean ====
section
/-! SUPPORT. One lemma per field per update of `State`, all true by `rfl`, and the output ports after each update. -/

namespace Sys2Proof.Machine

@[simp] theorem reset_flt : State.reset.flt = 0 := rfl
@[simp] theorem reset_host : State.reset.host = [] := rfl
@[simp] theorem reset_rsp : State.reset.rsp = none := rfl

@[simp] theorem advance_flt (s : State) : s.advance.flt = s.flt := rfl
@[simp] theorem advance_host (s : State) : s.advance.host = s.host.tail := rfl
@[simp] theorem advance_rsp (s : State) : s.advance.rsp = none := rfl

@[simp] theorem complete_flt (s : State) (w : Word) : (s.complete w).flt = s.flt := rfl
@[simp] theorem complete_host (s : State) (w : Word) : (s.complete w).host = s.host := rfl
@[simp] theorem complete_rsp (s : State) (w : Word) : (s.complete w).rsp = some (.ok w) := rfl

@[simp] theorem raise_flt (s : State) (c : Cause) : (s.raise c).flt = c.code := rfl
@[simp] theorem raise_host (s : State) (c : Cause) : (s.raise c).host = s.host := rfl
@[simp] theorem raise_rsp (s : State) (c : Cause) : (s.raise c).rsp = some (.fault c.code) := rfl

@[simp] theorem answerHalted_flt (s : State) : s.answerHalted.flt = s.flt := rfl
@[simp] theorem answerHalted_host (s : State) : s.answerHalted.host = s.host := rfl
@[simp] theorem answerHalted_rsp (s : State) : s.answerHalted.rsp = some (.fault s.flt) := rfl

@[simp] theorem applyReset_flt (s : State) : s.applyReset.flt = 0 := rfl
@[simp] theorem applyReset_host (s : State) : s.applyReset.host = s.host := rfl
@[simp] theorem applyReset_rsp (s : State) : s.applyReset.rsp = none := rfl

@[simp] theorem withFetchWord_flt (s : State) (n w : Nat) : (s.withFetchWord n w).flt = s.flt := rfl
@[simp] theorem withFetchWord_rsp (s : State) (n w : Nat) : (s.withFetchWord n w).rsp = s.rsp := rfl
@[simp] theorem withFetchWord_host (s : State) (n w : Nat) :
    (s.withFetchWord n w).host = ⟨false, some (commandOfTableWord n w)⟩ :: s.host := rfl

/-- What `halted` says of `FLT` (R12). -/
@[simp] theorem halted_eq_true_iff (s : State) : s.halted = true ↔ s.flt ≠ 0 := by simp [State.halted]

@[simp] theorem halted_eq_false_iff (s : State) : s.halted = false ↔ s.flt = 0 := by simp [State.halted]

theorem code_ne_zero (c : Cause) : c.code ≠ 0 := by cases c <;> decide

theorem code_legal (c : Cause) : legalFlt c.code = true := by cases c <;> decide

theorem code_injective {c d : Cause} (h : c.code = d.code) : c = d := by cases c <;> cases d <;> first | rfl | cases h

/-- The two ways a legal state's response can read. -/
theorem legal_iff (s : State) :
    s.legal = true ↔ legalFlt s.flt = true ∧
      (s.rsp = none ∨ (∃ w, s.rsp = some (.ok w) ∧ s.flt = 0) ∨ (s.rsp = some (.fault s.flt) ∧ s.flt ≠ 0)) := by
  rcases s with ⟨f, h, _ | ⟨w⟩ | ⟨c⟩⟩ <;> simp [State.legal]
  rintro _ rfl
  rfl

end Sys2Proof.Machine
end

