-- ==== Sys2Proof/Laws/Ops.lean ====
section
/-! SUPPORT. What the shared operations can do, said once: `perform`, and the primitive's bounds. -/

namespace Sys2Proof.Machine

theorem perform_halted {s : State} (r : Except Cause Word) (h : s.flt ≠ 0) : perform s r = .next s.answerHalted := by
  simp only [perform, (halted_eq_true_iff s).2 h, if_true]

theorem perform_ok {s : State} (w : Word) (h : s.flt = 0) : perform s (.ok w) = .next (s.complete w) := by
  simp [perform, State.halted, h]

theorem perform_error {s : State} (c : Cause) (h : s.flt = 0) : perform s (.error c) = .next (s.raise c) := by
  simp [perform, State.halted, h]

/-- Everything `perform` can do. -/
theorem perform_cases (s : State) (r : Except Cause Word) :
    (s.flt ≠ 0 ∧ perform s r = .next s.answerHalted) ∨
    (s.flt = 0 ∧ ∃ w, r = .ok w ∧ perform s r = .next (s.complete w)) ∨
    (s.flt = 0 ∧ ∃ c, r = .error c ∧ perform s r = .next (s.raise c)) := by
  by_cases h : s.flt = 0
  · cases r with
    | ok w => exact .inr (.inl ⟨h, w, rfl, perform_ok w h⟩)
    | error c => exact .inr (.inr ⟨h, c, rfl, perform_error c h⟩)
  · exact .inl ⟨h, perform_halted r h⟩

theorem add128_lt (x y : Nat) : add128 x y < 2 ^ 128 := Nat.mod_lt _ (by decide)

theorem sub128_lt (x y : Nat) : sub128 x y < 2 ^ 128 := Nat.mod_lt _ (by decide)

theorem neg128_lt (x : Nat) : neg128 x < 2 ^ 128 := Nat.mod_lt _ (by decide)

/-- `neg128` read as a difference, away from 0. -/
theorem neg128_of_pos {x : Nat} (h0 : 0 < x) : neg128 x = 2 ^ 128 - x := Nat.mod_eq_of_lt (by omega)

theorem neg128_zero : neg128 0 = 0 := by decide

/-- A natural is its two limbs. -/
theorem limbs_eq (x : Nat) : hiLimb x * 2 ^ 64 + loLimb x = x := by
  unfold hiLimb loLimb; omega

theorem loLimb_lt (x : Nat) : loLimb x < 2 ^ 64 := Nat.mod_lt _ (by decide)

theorem hiLimb_lt {x : Nat} (h : x < 2 ^ 128) : hiLimb x < 2 ^ 64 := by unfold hiLimb; omega

end Sys2Proof.Machine
end

