-- ==== Sys2Proof/Laws/Divide.lean ====
section
/-! SUPPORT. What each loop of the divider does, said once, and that fuel 64 is enough for every one of them: at the
exit its own guard is false (R50 (a), (e); assumption 14). -/

namespace Sys2Proof.Machine

/-- The strip divides out `2^k` exactly and stops at a full budget or an odd denominator. -/
theorem stripLoop_spec : ∀ (fuel shift den : Nat), shift + fuel = 64 →
    ∃ k, (stripLoop fuel shift den).1 = shift + k ∧ (stripLoop fuel shift den).2 * 2 ^ k = den ∧ shift + k ≤ 64 ∧
      (shift + k = 64 ∨ (stripLoop fuel shift den).2 % 2 = 1)
  | 0, shift, den, h => ⟨0, by simp [stripLoop]; omega⟩
  | fuel + 1, shift, den, h => by
    unfold stripLoop
    split
    · rename_i hg
      obtain ⟨k, h1, h2, h3, h4⟩ := stripLoop_spec fuel (shift + 1) (shr128 den 1) (by omega)
      refine ⟨k + 1, by omega, ?_, by omega, by omega⟩
      rw [Nat.pow_succ, ← Nat.mul_assoc, h2, shr128]
      omega
    · exact ⟨0, by simp, by simp, by omega, by omega⟩

/-- The first inner loop multiplies the remainder by `2^k` exactly and stops with no room left or a high remainder. -/
theorem remLoop_spec (digits : Nat) : ∀ (fuel shift rem : Nat), digits + shift ≤ 64 → 64 ≤ digits + shift + fuel →
    rem < 2 ^ 128 →
    ∃ k, (remLoop digits fuel shift rem).1 = shift + k ∧ (remLoop digits fuel shift rem).2 = rem * 2 ^ k ∧
      rem * 2 ^ k < 2 ^ 128 ∧ digits + (shift + k) ≤ 64 ∧ (digits + (shift + k) = 64 ∨ 2 ^ 127 ≤ rem * 2 ^ k)
  | 0, shift, rem, h1, h2, h3 => ⟨0, by simp [remLoop], by simp [remLoop], by simpa using h3, by omega, by omega⟩
  | fuel + 1, shift, rem, h1, h2, h3 => by
    unfold remLoop
    split
    · obtain ⟨k, e1, e2, e3, e4, e5⟩ := remLoop_spec digits fuel (shift + 1) (rem * 2) (by omega) (by omega) (by omega)
      have hk : rem * 2 * 2 ^ k = rem * 2 ^ (k + 1) := by rw [Nat.pow_succ]; ring
      rw [hk] at e2 e3 e5
      exact ⟨k + 1, by omega, e2, e3, by omega, by omega⟩
    · exact ⟨0, by simp, by simp, by simpa using h3, by omega, by simp; omega⟩

/-- The second inner loop shifts the denominator right and stops with no room left, or odd and not above the remainder.
A nonzero denominator stays nonzero while the remainder is nonzero (R50 (e)). -/
theorem denLoop_spec (digits rem : Nat) (hr : rem ≠ 0) : ∀ (fuel shift den : Nat), digits + shift ≤ 64 →
    64 ≤ digits + shift + fuel → den ≠ 0 →
    ∃ k, (denLoop digits rem fuel shift den).1 = shift + k ∧ (denLoop digits rem fuel shift den).2 = den / 2 ^ k ∧
      den / 2 ^ k ≠ 0 ∧ digits + (shift + k) ≤ 64 ∧
      (digits + (shift + k) = 64 ∨ (den / 2 ^ k % 2 = 1 ∧ den / 2 ^ k ≤ rem))
  | 0, shift, den, h1, h2, h3 => ⟨0, by simp [denLoop], by simp [denLoop], by simpa using h3, by omega, by omega⟩
  | fuel + 1, shift, den, h1, h2, h3 => by
    unfold denLoop
    split
    · rename_i hg
      obtain ⟨k, e1, e2, e3, e4, e5⟩ :=
        denLoop_spec digits rem hr fuel (shift + 1) (shr128 den 1) (by omega) (by omega) (by unfold shr128; omega)
      have hk : shr128 den 1 / 2 ^ k = den / 2 ^ (k + 1) := by
        unfold shr128; rw [Nat.div_div_eq_div_mul, Nat.pow_one, Nat.pow_succ, Nat.mul_comm (2 ^ k)]
      rw [hk] at e2 e3 e5
      exact ⟨k + 1, by omega, e2, e3, by omega, by omega⟩
    · exact ⟨0, by simp, by simp, by simpa using h3, by omega, by simp; omega⟩

/-- With room, both inner loops empty-handed would need a remainder both below and not below the denominator. -/
theorem denLoop_zero {digits rem fuel shift den : Nat} (h : (denLoop digits rem (fuel + 1) shift den).1 = shift)
    (hle : ∀ f s d, s ≤ (denLoop digits rem f s d).1) : ¬(digits + shift < 64 ∧ (den % 2 = 0 ∨ rem < den)) := by
  intro hg
  unfold denLoop at h
  rw [if_pos hg] at h
  have := hle fuel (shift + 1) (shr128 den 1)
  omega

theorem le_denLoop (digits rem : Nat) : ∀ f s d, s ≤ (denLoop digits rem f s d).1
  | 0, s, d => by simp [denLoop]
  | f + 1, s, d => by
    unfold denLoop
    split
    · exact Nat.le_trans (Nat.le_succ s) (le_denLoop digits rem f (s + 1) _)
    · exact Nat.le_refl _

/-- What holds at the start of every pass (R50 (a)). -/
structure DivReady (d : DivState) : Prop where
  den_ne : d.den ≠ 0
  room : d.digits + d.shift ≤ 64
  small : d.rem < 2 ^ 128
  progress : 1 ≤ d.shift ∨ d.rem < d.den

/-- A pass with digits left to produce and a nonzero remainder produces at least one, and leaves the next pass ready. -/
theorem divPass_ready {d : DivState} (h : DivReady d) (hd : d.digits < 64) (hr : d.rem ≠ 0) :
    DivReady (divPass d) ∧ d.digits < (divPass d).digits := by
  obtain ⟨k, r1, r2, r3, r4, r5⟩ := remLoop_spec d.digits 64 d.shift d.rem h.room (by omega) h.small
  have hr' : d.rem * 2 ^ k ≠ 0 := Nat.mul_ne_zero hr (by positivity)
  obtain ⟨j, e1, e2, e3, e4, e5⟩ :=
    denLoop_spec d.digits (d.rem * 2 ^ k) hr' 64 (d.shift + k) d.den (by omega) (by omega) h.den_ne
  have hs : 1 ≤ d.shift + k + j := by
    rcases h.progress with hp | hp
    · omega
    · by_contra hc
      obtain ⟨rfl, rfl⟩ : k = 0 ∧ j = 0 := by omega
      have := denLoop_zero (fuel := 63) (by simpa using e1) (le_denLoop _ _)
      omega
  have hm : rem128 (d.rem * 2 ^ k) (d.den / 2 ^ j) = d.rem * 2 ^ k % (d.den / 2 ^ j) := by
    unfold rem128
    have := Nat.div_add_mod (d.rem * 2 ^ k) (d.den / 2 ^ j)
    omega
  have hlt : d.rem * 2 ^ k % (d.den / 2 ^ j) < d.den / 2 ^ j := Nat.mod_lt _ (Nat.pos_of_ne_zero e3)
  have hle := Nat.mod_le (d.rem * 2 ^ k) (d.den / 2 ^ j)
  refine ⟨⟨?_, ?_, ?_, ?_⟩, ?_⟩ <;> simp only [divPass, r1, r2, e1, e2, hm]
  · exact e3
  · omega
  · omega
  · exact .inr hlt
  · omega

/-- The outer loop ends with its guard false and at most 64 digits: fuel 64 is enough from digit 0. -/
theorem divLoop_exit : ∀ (fuel : Nat) (d : DivState), DivReady d → 64 ≤ d.digits + fuel →
    ((divLoop fuel d).digits = 64 ∨ (divLoop fuel d).rem = 0) ∧ (divLoop fuel d).digits ≤ 64
  | 0, d, h, hf => by
    have := h.room
    simp only [divLoop]
    omega
  | fuel + 1, d, h, hf => by
    unfold divLoop
    split
    · rename_i hg
      obtain ⟨h1, h2⟩ := divPass_ready h hg.1 hg.2
      exact divLoop_exit fuel (divPass d) h1 (by omega)
    · have := h.room
      omega

/-- The first division and the strip leave the first pass ready. -/
theorem divStart_ready {a b : Nat} (ha : a < 2 ^ 128) (hb : b ≠ 0) : DivReady (divStart a b) := by
  obtain ⟨k, h1, h2, h3, h4⟩ := stripLoop_spec 64 0 b rfl
  have hm : rem128 a b = a % b := by
    unfold rem128
    have := Nat.div_add_mod a b
    omega
  have hle := Nat.mod_le a b
  have hlt := Nat.mod_lt a (Nat.pos_of_ne_zero hb)
  refine ⟨?_, ?_, ?_, ?_⟩ <;> simp only [divStart, hm]
  · rintro h0
    rw [h0] at h2
    omega
  · omega
  · omega
  · rcases Nat.eq_zero_or_pos k with rfl | hk
    · right
      rw [Nat.pow_zero, Nat.mul_one] at h2
      omega
    · left; omega

/-- The divider's loop, run from any start, ends with 64 digits or no remainder. -/
theorem udiv_loop_exit {a b : Nat} (ha : a < 2 ^ 128) (hb : b ≠ 0) :
    ((divLoop 64 (divStart a b)).digits = 64 ∨ (divLoop 64 (divStart a b)).rem = 0) ∧
      (divLoop 64 (divStart a b)).digits ≤ 64 :=
  divLoop_exit 64 _ (divStart_ready ha hb) (by omega)

end Sys2Proof.Machine
end

