-- ==== Sys2Proof/Laws/Exec.lean ====
section
/-! SUPPORT. Every meaning is one `perform` of a computation that does not read the state, and the step is said by
cases. Later proofs cite these and unfold neither `exec` nor `step`. -/

namespace Sys2Proof.Machine

/-- The result or the fault of a command, without the state (R11: a function of the operands alone). -/
theorem exec_eq_perform (i : Instr) : ∃ r : Except Cause Word, ∀ s, exec i s = perform s r := by
  cases i <;> simp only [exec,
    execZero, execFroms8, execFroms16, execFroms32, execFroms64, execFromu8, execFromu16,
    execFromu32, execFromu64, execFromhilo, execFromf64, execAdd, execSub, execNeg, execPos, execEq,
    execLt, execGt, execTobool, execMul, execDiv, execUmul, execUdiv, execInvert, execMulinv,
    execUmulinv, execGethigh, execGetlow, execGetint, execRound, execGetdouble] <;>
    exact ⟨_, fun _ => rfl⟩

/-- Everything `exec` can do. -/
theorem exec_cases (i : Instr) (s : State) :
    (s.flt ≠ 0 ∧ exec i s = .next s.answerHalted) ∨
    (s.flt = 0 ∧ ∃ w, exec i s = .next (s.complete w)) ∨
    (s.flt = 0 ∧ ∃ c, exec i s = .next (s.raise c)) := by
  obtain ⟨r, hr⟩ := exec_eq_perform i
  rcases perform_cases s r with ⟨h, e⟩ | ⟨h, w, -, e⟩ | ⟨h, c, -, e⟩
  · exact .inl ⟨h, (hr s).trans e⟩
  · exact .inr (.inl ⟨h, w, (hr s).trans e⟩)
  · exact .inr (.inr ⟨h, c, (hr s).trans e⟩)

/-- What the ports show when the host drives `d` next. -/
theorem drive_of_host {s : State} {d : Drive} {rest : List Drive} (h : s.host = d :: rest) : s.drive = d := by
  simp [State.drive, h]

/-- A command is accepted exactly when it is driven with `rst` low. -/
theorem accepted_eq_some_iff (s : State) (c : Command) : s.accepted = some c ↔ s.rst = false ∧ s.drive.cmd = some c := by
  cases h : s.rst <;> simp [State.accepted, State.cmdReady, h]

theorem step_reset {s : State} (h : s.rst = true) : step s = .next s.advance.applyReset := by simp [step, h]

theorem step_idle {s : State} (h : s.rst = false) (hc : s.drive.cmd = none) : step s = .next s.advance := by
  simp [step, h, State.accepted, State.cmdReady, hc]

theorem step_halted {s : State} {c : Command} (h : s.accepted = some c) (hf : s.flt ≠ 0) :
    step s = .next s.advance.answerHalted := by
  have hr := (accepted_eq_some_iff s c).1 h
  simp only [step, hr.1, h, (halted_eq_true_iff s).2 hf, if_true, Bool.false_eq_true, if_false]

theorem step_reserved {s : State} {c : Command} {e : DecodeReject} (h : s.accepted = some c) (hf : s.flt = 0)
    (hd : decode c = .error e) : step s = .next (s.advance.raise .illegalCommand) := by
  have hr := (accepted_eq_some_iff s c).1 h
  simp [step, hr.1, h, hf, hd, State.halted]

theorem step_exec {s : State} {c : Command} {i : Instr} (h : s.accepted = some c) (hf : s.flt = 0)
    (hd : decode c = .ok i) : step s = exec i s.advance := by
  have hr := (accepted_eq_some_iff s c).1 h
  simp [step, hr.1, h, hf, hd, State.halted]

/-- Everything one step can do: reset, wait, answer halted, complete, raise. -/
theorem step_cases (s : State) :
    (s.rst = true ∧ step s = .next s.advance.applyReset) ∨
    (s.rst = false ∧ s.accepted = none ∧ step s = .next s.advance) ∨
    (∃ c, s.accepted = some c ∧ s.flt ≠ 0 ∧ step s = .next s.advance.answerHalted) ∨
    (∃ c w, s.accepted = some c ∧ s.flt = 0 ∧ step s = .next (s.advance.complete w)) ∨
    (∃ c f, s.accepted = some c ∧ s.flt = 0 ∧ step s = .next (s.advance.raise f)) := by
  cases hr : s.rst with
  | true => exact .inl ⟨rfl, step_reset hr⟩
  | false =>
    right
    cases ha : s.accepted with
    | none =>
      have hc : s.drive.cmd = none := by simpa [State.accepted, State.cmdReady, hr] using ha
      exact .inl ⟨rfl, rfl, step_idle hr hc⟩
    | some c =>
      right
      by_cases hf : s.flt = 0
      · right
        cases hd : decode c with
        | error e => exact .inr ⟨c, .illegalCommand, rfl, hf, step_reserved ha hf hd⟩
        | ok i =>
          rcases exec_cases i s.advance with ⟨h, -⟩ | ⟨-, w, h⟩ | ⟨-, f, h⟩
          · exact absurd hf h
          · exact .inl ⟨c, w, rfl, hf, (step_exec ha hf hd).trans h⟩
          · exact .inr ⟨c, f, rfl, hf, (step_exec ha hf hd).trans h⟩
      · exact .inl ⟨c, rfl, hf, step_halted ha hf⟩

end Sys2Proof.Machine
end

