-- ==== Sys2Proof/Laws/SignMagnitude.lean ====
section
/-! SUPPORT. The magnitude and the sign, said once in integers (R40, R41). -/

namespace Sys2Proof.Machine

/-- A word's two's-complement value, by its sign bit (R7). -/
theorem toInt_of_msb (x : Word) : x.toInt = if x.msb then (x.toNat : Int) - 2 ^ 128 else (x.toNat : Int) := by
  rw [BitVec.toInt_eq_msb_cond]; norm_num

theorem msb_iff_toInt_neg (x : Word) : x.msb = true ↔ x.toInt < 0 := by
  rw [BitVec.msb_eq_toInt]; simp

/-- `Abs` is the mathematical absolute value, `MIN` included (R40). -/
theorem absWord_eq_natAbs (x : Word) : absWord x = x.toInt.natAbs := by
  have hx := x.isLt
  have hi := toInt_of_msb x
  have hm := BitVec.msb_eq_decide x
  unfold absWord
  cases h : x.msb <;> simp only [h, if_true, if_false, Bool.false_eq_true] at hi ⊢
  · omega
  · have : 2 ^ 127 ≤ x.toNat := by simpa [h] using hm.symm
    rw [neg128_of_pos (by omega)]; omega

theorem absWord_le (x : Word) : absWord x ≤ 2 ^ 127 := by
  rw [absWord_eq_natAbs]
  have h1 := BitVec.toInt_lt (x := x)
  have h2 := BitVec.le_toInt x
  norm_num at h1 h2 ⊢
  omega

/-- A signed word has exactly the signed magnitude, wherever that magnitude has a word (R41). -/
theorem signedWord_toInt {m : Nat} {negative : Bool} (h : m ≤ 2 ^ 127) (hp : negative = false → m < 2 ^ 127) :
    (signedWord m negative).toInt = if negative then -(m : Int) else m := by
  unfold signedWord
  rw [toInt_of_msb, BitVec.msb_eq_decide]
  cases negative with
  | false =>
    have := hp rfl
    simp only [Bool.false_eq_true, if_false, BitVec.toNat_ofNat]
    rw [Nat.mod_eq_of_lt (by omega), if_neg (by simp; omega)]
  | true =>
    simp only [if_true, BitVec.toNat_ofNat]
    rcases Nat.eq_zero_or_pos m with rfl | h0
    · decide
    · rw [neg128_of_pos h0, Nat.mod_eq_of_lt (by omega), if_pos (by simp; omega)]
      omega

end Sys2Proof.Machine
end

