-- ==== Sys2Proof/Laws/MultiplyDivide.lean ====
section
/-! SUPPORT. The signed commands over their unsigned cores, said once (R43, R52, R63). The magnitude is a variable in each
lemma: cite them with the core's result generalized, so that no proof reduces a comparison with `2^127`. -/

namespace Sys2Proof.Machine

/-- The normalizer in integers (R40). -/
theorem normalizeSigns_eq (a b : Word) :
    normalizeSigns a b = ⟨a.toInt.natAbs, b.toInt.natAbs, decide (a.toInt < 0) != decide (b.toInt < 0)⟩ := by
  have h (x : Word) : x.msb = decide (x.toInt < 0) := by rw [BitVec.msb_eq_toInt]
  simp only [normalizeSigns, absWord_eq_natAbs, h]

/-- Where the sign step finds no word (R41). -/
theorem applySign_error {m : Nat} {negative : Bool} (h : m > 2 ^ 127 ∨ (m = 2 ^ 127 ∧ negative = false)) :
    applySign m negative = .error .arithmeticOverflow := by
  unfold applySign
  rcases h with h | ⟨rfl, h⟩
  · rw [if_pos h]
  · rw [if_neg (by omega), if_pos ⟨rfl, h⟩]

/-- Where the sign step finds a word, and which (R41). -/
theorem applySign_ok {m : Nat} {negative : Bool} (h : ¬(m > 2 ^ 127 ∨ (m = 2 ^ 127 ∧ negative = false))) :
    ∃ w, applySign m negative = .ok w ∧ w.toInt = if negative then -(m : Int) else (m : Int) := by
  push Not at h
  refine ⟨signedWord m negative, ?_, signedWord_toInt h.1 fun hn => Nat.lt_of_le_of_ne h.1 fun he => h.2 he hn⟩
  unfold applySign
  rw [if_neg (Nat.not_lt.mpr h.1), if_neg fun hc => h.2 hc.1 hc.2]

theorem mulWords_of_ok {a b : Word} {m : Nat} (h : umul a.toInt.natAbs b.toInt.natAbs = .ok m) :
    mulWords a b = applySign m (decide (a.toInt < 0) != decide (b.toInt < 0)) := by
  simp only [mulWords, normalizeSigns_eq, h, Except.bind]

theorem mulWords_of_error {a b : Word} {c : Cause} (h : umul a.toInt.natAbs b.toInt.natAbs = .error c) :
    mulWords a b = .error c := by
  simp only [mulWords, normalizeSigns_eq, h, Except.bind]

theorem divWords_of_ok {a b : Word} {m : Nat} (h : udiv a.toInt.natAbs b.toInt.natAbs = .ok m) :
    divWords a b = applySign m (decide (a.toInt < 0) != decide (b.toInt < 0)) := by
  simp only [divWords, normalizeSigns_eq, h, Except.bind]

theorem divWords_of_error {a b : Word} {c : Cause} (h : udiv a.toInt.natAbs b.toInt.natAbs = .error c) :
    divWords a b = .error c := by
  simp only [divWords, normalizeSigns_eq, h, Except.bind]

theorem mulByInvert_of_ok {a b : Word} {m : Nat} (h : umulByInvert a.toInt.natAbs b.toNat = .ok m) :
    mulByInvert a b = .ok (signedWord m a.msb) := by
  simp only [mulByInvert, absWord_eq_natAbs, h, Except.map]

theorem mulByInvert_of_error {a b : Word} {c : Cause} (h : umulByInvert a.toInt.natAbs b.toNat = .error c) :
    mulByInvert a b = .error c := by
  simp only [mulByInvert, absWord_eq_natAbs, h, Except.map]

end Sys2Proof.Machine
end

