-- ==== Sys2Proof/Laws/PerInstr.lean ====
section
/-! SUPPORT. One lemma per constructor of `Instr`: the encoder puts zeros in every bit the command ignores (R31, R36). -/

namespace Sys2Proof.Laws.EncodeCanonical

/-- The encoded command has zeros in every ignored bit. -/
def Statement (i : Instr) : Prop := (encode i).ignoredZero i.mnemonic = true

/-- A zero-extended operand keeps below its width. -/
theorem setWidth_lt {n : Nat} (x : BitVec n) : (x.setWidth 128).toNat < 2 ^ n :=
  Nat.lt_of_le_of_lt (by simp only [BitVec.toNat_setWidth]; exact Nat.mod_le _ _) x.isLt

theorem whole (x : Word) : x.toNat < 2 ^ 128 := x.isLt

/-- What the check asks of the encoder, bus by bus. -/
theorem of_bounds {i : Instr} (ha : i.busA.toNat < 2 ^ i.mnemonic.aBits) (hb : i.busB.toNat < 2 ^ i.mnemonic.bBits) :
    Statement i := by
  unfold Statement Command.ignoredZero
  exact (Bool.and_eq_true _ _).mpr ⟨decide_eq_true ha, decide_eq_true hb⟩

/-- An unused bus carries the zero word. -/
theorem unused : (0 : Word).toNat < 2 ^ 0 := by decide

theorem zero : Statement .zero := of_bounds unused unused

theorem froms8 (n : BitVec 8) : Statement (.froms8 n) := of_bounds (setWidth_lt n) unused

theorem froms16 (n : BitVec 16) : Statement (.froms16 n) := of_bounds (setWidth_lt n) unused

theorem froms32 (n : BitVec 32) : Statement (.froms32 n) := of_bounds (setWidth_lt n) unused

theorem froms64 (n : BitVec 64) : Statement (.froms64 n) := of_bounds (setWidth_lt n) unused

theorem fromu8 (n : BitVec 8) : Statement (.fromu8 n) := of_bounds (setWidth_lt n) unused

theorem fromu16 (n : BitVec 16) : Statement (.fromu16 n) := of_bounds (setWidth_lt n) unused

theorem fromu32 (n : BitVec 32) : Statement (.fromu32 n) := of_bounds (setWidth_lt n) unused

theorem fromu64 (n : BitVec 64) : Statement (.fromu64 n) := of_bounds (setWidth_lt n) unused

theorem fromhilo (h l : Limb) : Statement (.fromhilo h l) := of_bounds (setWidth_lt h) (setWidth_lt l)

theorem fromf64 (n : BitVec 64) : Statement (.fromf64 n) := of_bounds (setWidth_lt n) unused

theorem add (a b : Word) : Statement (.add a b) := of_bounds (whole a) (whole b)

theorem sub (a b : Word) : Statement (.sub a b) := of_bounds (whole a) (whole b)

theorem neg (a : Word) : Statement (.neg a) := of_bounds (whole a) unused

theorem pos (a : Word) : Statement (.pos a) := of_bounds (whole a) unused

theorem eq (a b : Word) : Statement (.eq a b) := of_bounds (whole a) (whole b)

theorem lt (a b : Word) : Statement (.lt a b) := of_bounds (whole a) (whole b)

theorem gt (a b : Word) : Statement (.gt a b) := of_bounds (whole a) (whole b)

theorem tobool (a : Word) : Statement (.tobool a) := of_bounds (whole a) unused

theorem mul (a b : Word) : Statement (.mul a b) := of_bounds (whole a) (whole b)

theorem div (a b : Word) : Statement (.div a b) := of_bounds (whole a) (whole b)

theorem umul (a b : Word) : Statement (.umul a b) := of_bounds (whole a) (whole b)

theorem udiv (a b : Word) : Statement (.udiv a b) := of_bounds (whole a) (whole b)

theorem invert (n : BitVec 64) : Statement (.invert n) := of_bounds (setWidth_lt n) unused

theorem mulinv (a b : Word) : Statement (.mulinv a b) := of_bounds (whole a) (whole b)

theorem umulinv (a b : Word) : Statement (.umulinv a b) := of_bounds (whole a) (whole b)

theorem gethigh (a : Word) : Statement (.gethigh a) := of_bounds (whole a) unused

theorem getlow (a : Word) : Statement (.getlow a) := of_bounds (whole a) unused

theorem getint (a : Word) : Statement (.getint a) := of_bounds (whole a) unused

theorem round (a : Word) : Statement (.round a) := of_bounds (whole a) unused

theorem getdouble (a : Word) : Statement (.getdouble a) := of_bounds (whole a) unused

end Sys2Proof.Laws.EncodeCanonical
end

