-- ==== Sys2Proof/Tests/Slice0.lean ====
section
/-! SUPPORT. The model's own tests. Every expected value comes from the spec: the words of R30 and R33, the vectors V-… of
`spec/95_test_vectors.md`, and the ranges of the rules. The last section shows that the hypotheses of every statement
can be met, each clause at the boundary of its range. -/

namespace Sys2Proof.Tests

set_option Elab.async false

open Sys2Proof.Machine

/-! Helpers. -/

/-- The command whose listing word (R30) is `x`. -/
def word (x : Nat) : Command := commandOfTableWord 264 x

/-- A unit with fault register `f` and a host that drives one command. -/
def driven (f : BitVec 3) (c : Command) : State := { flt := f, host := [⟨false, some c⟩], rsp := none }

/-- The next state of an outcome, if it has one. -/
def nextOf : Host.Outcome State Fault Refusal → Option State
  | .next t => some t
  | _ => none

/-- `FLT` and the response after one step of a running unit given one command. -/
def answer (op : BitVec 8) (a b : Word) : Option (BitVec 3 × Option Response) :=
  (nextOf (step (driven 0 ⟨op, a, b⟩))).map fun t => (t.flt, t.rsp)

/-- The response a meaning gives right after reset. -/
def response (i : Instr) : Option Response := (nextOf (exec i State.reset)).bind fun t => t.rsp

/-- A word put in the bits a command ignores. -/
def junk : Word := 0xDEADBEEFDEADBEEF123456789ABCDEF0

/-! Well-formedness: each check refuses an ill-formed command (R34, R31, R36). -/

theorem test_wf_reserved_opcode : (Command.legal ⟨0x0B, 0, 0⟩) = false := by decide +kernel

theorem test_wf_ignored_bit_of_a : (Command.ignoredZero ⟨0x01, 0x100, 0⟩ .froms8) = false := by decide +kernel

theorem test_wf_ignored_bit_of_b : (Command.ignoredZero ⟨0x12, 7, 1⟩ .neg) = false := by decide +kernel

theorem test_wf_accepts : Command.legal ⟨0x01, 0xFF, 0⟩ = true ∧ Command.ignoredZero ⟨0x01, 0xFF, 0⟩ .froms8 = true := by
  decide +kernel

/-! Decoding: for every command its word written out as `a ‖ b ‖ op` (R30, R33), ones in every ignored bit (R31). -/

theorem test_decode_zero : decodeTableWord 264 0xFFFFFFFFFFFFFFFFFFFFFFFFFFFFFFFFFFFFFFFFFFFFFFFFFFFFFFFFFFFFFFFF00 = some (.zero) := by
  decide +kernel

theorem test_decode_froms8 : decodeTableWord 264 0xFFFFFFFFFFFFFFFFFFFFFFFFFFFFFF80FFFFFFFFFFFFFFFFFFFFFFFFFFFFFFFF01 = some (.froms8 0x80) := by
  decide +kernel

theorem test_decode_froms16 : decodeTableWord 264 0xFFFFFFFFFFFFFFFFFFFFFFFFFFFF80A1FFFFFFFFFFFFFFFFFFFFFFFFFFFFFFFF02 = some (.froms16 0x80A1) := by
  decide +kernel

theorem test_decode_froms32 : decodeTableWord 264 0xFFFFFFFFFFFFFFFFFFFFFFFF80A1B2C3FFFFFFFFFFFFFFFFFFFFFFFFFFFFFFFF03 = some (.froms32 0x80A1B2C3) := by
  decide +kernel

theorem test_decode_froms64 : decodeTableWord 264 0xFFFFFFFFFFFFFFFF80A1B2C3D4E5F607FFFFFFFFFFFFFFFFFFFFFFFFFFFFFFFF04 = some (.froms64 0x80A1B2C3D4E5F607) := by
  decide +kernel

theorem test_decode_fromu8 : decodeTableWord 264 0xFFFFFFFFFFFFFFFFFFFFFFFFFFFFFF80FFFFFFFFFFFFFFFFFFFFFFFFFFFFFFFF05 = some (.fromu8 0x80) := by
  decide +kernel

theorem test_decode_fromu16 : decodeTableWord 264 0xFFFFFFFFFFFFFFFFFFFFFFFFFFFF80A1FFFFFFFFFFFFFFFFFFFFFFFFFFFFFFFF06 = some (.fromu16 0x80A1) := by
  decide +kernel

theorem test_decode_fromu32 : decodeTableWord 264 0xFFFFFFFFFFFFFFFFFFFFFFFF80A1B2C3FFFFFFFFFFFFFFFFFFFFFFFFFFFFFFFF07 = some (.fromu32 0x80A1B2C3) := by
  decide +kernel

theorem test_decode_fromu64 : decodeTableWord 264 0xFFFFFFFFFFFFFFFF80A1B2C3D4E5F607FFFFFFFFFFFFFFFFFFFFFFFFFFFFFFFF08 = some (.fromu64 0x80A1B2C3D4E5F607) := by
  decide +kernel

theorem test_decode_fromhilo : decodeTableWord 264 0xFFFFFFFFFFFFFFFFFFFFFFFFFFFFFFFDFFFFFFFFFFFFFFFF800000000000000009 = some (.fromhilo 0xFFFFFFFFFFFFFFFD 0x8000000000000000) := by
  decide +kernel

theorem test_decode_fromf64 : decodeTableWord 264 0xFFFFFFFFFFFFFFFFC004000000000000FFFFFFFFFFFFFFFFFFFFFFFFFFFFFFFF0A = some (.fromf64 0xC004000000000000) := by
  decide +kernel

theorem test_decode_add : decodeTableWord 264 0x0123456789ABCDEF00112233445566778899AABBCCDDEEFF776655443322110010 = some (.add 0x0123456789ABCDEF0011223344556677 0x8899AABBCCDDEEFF7766554433221100) := by
  decide +kernel

theorem test_decode_sub : decodeTableWord 264 0x0123456789ABCDEF00112233445566778899AABBCCDDEEFF776655443322110011 = some (.sub 0x0123456789ABCDEF0011223344556677 0x8899AABBCCDDEEFF7766554433221100) := by
  decide +kernel

theorem test_decode_eq : decodeTableWord 264 0x0123456789ABCDEF00112233445566778899AABBCCDDEEFF776655443322110014 = some (.eq 0x0123456789ABCDEF0011223344556677 0x8899AABBCCDDEEFF7766554433221100) := by
  decide +kernel

theorem test_decode_lt : decodeTableWord 264 0x0123456789ABCDEF00112233445566778899AABBCCDDEEFF776655443322110015 = some (.lt 0x0123456789ABCDEF0011223344556677 0x8899AABBCCDDEEFF7766554433221100) := by
  decide +kernel

theorem test_decode_gt : decodeTableWord 264 0x0123456789ABCDEF00112233445566778899AABBCCDDEEFF776655443322110016 = some (.gt 0x0123456789ABCDEF0011223344556677 0x8899AABBCCDDEEFF7766554433221100) := by
  decide +kernel

theorem test_decode_mul : decodeTableWord 264 0x0123456789ABCDEF00112233445566778899AABBCCDDEEFF776655443322110020 = some (.mul 0x0123456789ABCDEF0011223344556677 0x8899AABBCCDDEEFF7766554433221100) := by
  decide +kernel

theorem test_decode_div : decodeTableWord 264 0x0123456789ABCDEF00112233445566778899AABBCCDDEEFF776655443322110021 = some (.div 0x0123456789ABCDEF0011223344556677 0x8899AABBCCDDEEFF7766554433221100) := by
  decide +kernel

theorem test_decode_umul : decodeTableWord 264 0x0123456789ABCDEF00112233445566778899AABBCCDDEEFF776655443322110022 = some (.umul 0x0123456789ABCDEF0011223344556677 0x8899AABBCCDDEEFF7766554433221100) := by
  decide +kernel

theorem test_decode_udiv : decodeTableWord 264 0x0123456789ABCDEF00112233445566778899AABBCCDDEEFF776655443322110023 = some (.udiv 0x0123456789ABCDEF0011223344556677 0x8899AABBCCDDEEFF7766554433221100) := by
  decide +kernel

theorem test_decode_mulinv : decodeTableWord 264 0x0123456789ABCDEF00112233445566778899AABBCCDDEEFF776655443322110031 = some (.mulinv 0x0123456789ABCDEF0011223344556677 0x8899AABBCCDDEEFF7766554433221100) := by
  decide +kernel

theorem test_decode_umulinv : decodeTableWord 264 0x0123456789ABCDEF00112233445566778899AABBCCDDEEFF776655443322110032 = some (.umulinv 0x0123456789ABCDEF0011223344556677 0x8899AABBCCDDEEFF7766554433221100) := by
  decide +kernel

theorem test_decode_neg : decodeTableWord 264 0x0123456789ABCDEF0011223344556677FFFFFFFFFFFFFFFFFFFFFFFFFFFFFFFF12 = some (.neg 0x0123456789ABCDEF0011223344556677) := by
  decide +kernel

theorem test_decode_pos : decodeTableWord 264 0x0123456789ABCDEF0011223344556677FFFFFFFFFFFFFFFFFFFFFFFFFFFFFFFF13 = some (.pos 0x0123456789ABCDEF0011223344556677) := by
  decide +kernel

theorem test_decode_tobool : decodeTableWord 264 0x0123456789ABCDEF0011223344556677FFFFFFFFFFFFFFFFFFFFFFFFFFFFFFFF17 = some (.tobool 0x0123456789ABCDEF0011223344556677) := by
  decide +kernel

theorem test_decode_gethigh : decodeTableWord 264 0x0123456789ABCDEF0011223344556677FFFFFFFFFFFFFFFFFFFFFFFFFFFFFFFF40 = some (.gethigh 0x0123456789ABCDEF0011223344556677) := by
  decide +kernel

theorem test_decode_getlow : decodeTableWord 264 0x0123456789ABCDEF0011223344556677FFFFFFFFFFFFFFFFFFFFFFFFFFFFFFFF41 = some (.getlow 0x0123456789ABCDEF0011223344556677) := by
  decide +kernel

theorem test_decode_getint : decodeTableWord 264 0x0123456789ABCDEF0011223344556677FFFFFFFFFFFFFFFFFFFFFFFFFFFFFFFF42 = some (.getint 0x0123456789ABCDEF0011223344556677) := by
  decide +kernel

theorem test_decode_round : decodeTableWord 264 0x0123456789ABCDEF0011223344556677FFFFFFFFFFFFFFFFFFFFFFFFFFFFFFFF43 = some (.round 0x0123456789ABCDEF0011223344556677) := by
  decide +kernel

theorem test_decode_getdouble : decodeTableWord 264 0x0123456789ABCDEF0011223344556677FFFFFFFFFFFFFFFFFFFFFFFFFFFFFFFF44 = some (.getdouble 0x0123456789ABCDEF0011223344556677) := by
  decide +kernel

theorem test_decode_invert : decodeTableWord 264 0xFFFFFFFFFFFFFFFF000000000000000AFFFFFFFFFFFFFFFFFFFFFFFFFFFFFFFF30 = some (.invert 10) := by
  decide +kernel

/-- The table's own eight bits, operand words of zeros (`spec/opcode_table.json`). -/
theorem test_decode_short_words :
    decodeTableWord 8 0x21 = some (.div 0 0) ∧ decodeTableWord 8 0x09 = some (.fromhilo 0 0) ∧
    decodeTableWord 8 0x45 = none ∧ decodeTableWord 8 0x1F = none := by decide +kernel

/-! One step per test, from the vectors of `spec/95_test_vectors.md`; the vector's name stands in the test's name. -/

theorem test_zero_ignores_operands : answer 0x00 junk junk = some (0, some (.ok 0)) := by decide +kernel

theorem test_reset_clears_fault : nextOf (step { flt := 3, host := [⟨true, some ⟨0x00, 0, 0⟩⟩], rsp := none }) = some State.reset := by
  decide +kernel

theorem test_zero_v_int_1 : answer 0x00 0xDEADBEEFDEADBEEFDEADBEEFDEADBE55 junk =
    some (0, some (.ok 0x00000000000000000000000000000000)) := by decide +kernel

theorem test_froms8_v_int_2 : answer 0x01 0xDEADBEEFDEADBEEFDEADBEEFDEADBE80 junk =
    some (0, some (.ok 0xFFFFFFFFFFFFFF800000000000000000)) := by decide +kernel

theorem test_froms8_v_int_3 : answer 0x01 0x0000000000000000000000000000007F junk =
    some (0, some (.ok 0x000000000000007F0000000000000000)) := by decide +kernel

theorem test_fromu8_v_int_4 : answer 0x05 0xDEADBEEFDEADBEEFDEADBEEFDEADBE80 junk =
    some (0, some (.ok 0x00000000000000800000000000000000)) := by decide +kernel

theorem test_froms16_v_int_5 : answer 0x02 0x0000000000000000000000000000FFFF junk =
    some (0, some (.ok 0xFFFFFFFFFFFFFFFF0000000000000000)) := by decide +kernel

theorem test_fromu16_v_int_6 : answer 0x06 0x0000000000000000000000000000FFFF junk =
    some (0, some (.ok 0x000000000000FFFF0000000000000000)) := by decide +kernel

theorem test_froms32_v_int_7 : answer 0x03 0x0000000000000000AAAAAAAA80000000 junk =
    some (0, some (.ok 0xFFFFFFFF800000000000000000000000)) := by decide +kernel

theorem test_fromu32_v_int_8 : answer 0x07 0x0000000000000000AAAAAAAA80000000 junk =
    some (0, some (.ok 0x00000000800000000000000000000000)) := by decide +kernel

theorem test_froms64_v_int_9 : answer 0x04 0x00000000000012348000000000000000 junk =
    some (0, some (.ok 0x80000000000000000000000000000000)) := by decide +kernel

theorem test_froms64_v_int_10 : answer 0x04 0x00000000000000007FFFFFFFFFFFFFFF junk =
    some (0, some (.ok 0x7FFFFFFFFFFFFFFF0000000000000000)) := by decide +kernel

theorem test_fromu64_v_int_12 : answer 0x08 0x0000000000000000FFFFFFFFFFFFFFFF junk =
    some (0, some (.ok 0xFFFFFFFFFFFFFFFF0000000000000000)) := by decide +kernel

theorem test_fromu64_v_int_13 : answer 0x08 0x00000000000000008000000000000000 junk =
    some (0, some (.ok 0x80000000000000000000000000000000)) := by decide +kernel

theorem test_umul_v_umul_11 : answer 0x22 0x4000000000000000FFFFFFFFFFFFFFFF 0x0000000000000002FFFFFFFFFFFFFFFF =
    some (0, some (.ok 0xC000000000000002BFFFFFFFFFFFFFFC)) := by decide +kernel

theorem test_umul_v_umul_12 : answer 0x22 0x8000000000000000FFFFFFFFFFFFFFFF 0x0000000000000001FFFFFFFFFFFFFFFF =
    some (1, some (.fault 1)) := by decide +kernel

theorem test_mul_v_mul_1 : answer 0x20 0xFFFFFFFFFFFFFFFE8000000000000000 0x00000000000000028000000000000000 =
    some (0, some (.ok 0xFFFFFFFFFFFFFFFC4000000000000000)) := by decide +kernel

theorem test_mul_v_mul_8 : answer 0x20 0x00000000800000000000000000000000 0x00000001000000000000000000000000 =
    some (1, some (.fault 1)) := by decide +kernel

theorem test_udiv_v_udiv_3 : answer 0x23 0x00000018000000000000000000000000 0x00000010000000000000000000000000 =
    some (0, some (.ok 0x00000000000000018000000000000000)) := by decide +kernel

theorem test_udiv_v_udiv_4 : answer 0x23 0x80000000000000000000000000000000 0x80000000000000000000000000000001 =
    some (0, some (.ok 0x00000000000000010000000000000000)) := by decide +kernel

theorem test_div_v_div_5 : answer 0x21 0xFFFFFFFFFFFFFFF90000000000000000 0xFFFFFFFFFFFFFFFE0000000000000000 =
    some (0, some (.ok 0x00000000000000038000000000000000)) := by decide +kernel

theorem test_div_v_div_16 : answer 0x21 0x80000000000000000000000000000000 0x0000000000000000FFFFFFFFFFFFFFFF =
    some (1, some (.fault 1)) := by decide +kernel

theorem test_fromhilo_v_hilo_2 : answer 0x09 0xFFFFFFFFFFFFFFFD 0x8000000000000000 =
    some (0, some (.ok 0xFFFFFFFFFFFFFFFD8000000000000000)) := by decide +kernel

theorem test_fromhilo_v_hilo_5 : answer 0x09 0x7FFFFFFFFFFFFFFF 0xFFFFFFFFFFFFFFFF =
    some (0, some (.ok 0x7FFFFFFFFFFFFFFFFFFFFFFFFFFFFFFF)) := by decide +kernel

theorem test_fromf64_v_f64_24 : answer 0x0A 0xC0FE240C9FBE76C9 junk =
    some (0, some (.ok 0xFFFFFFFFFFFE1DBF3604189370000000)) := by decide +kernel

theorem test_fromf64_v_f64_11 : answer 0x0A 0xBBE0000000000000 junk =
    some (0, some (.ok 0xFFFFFFFFFFFFFFFFFFFFFFFFFFFFFFFF)) := by decide +kernel

theorem test_getdouble_v_gd_9 : answer 0x44 0x00000000000000000020000000000003 junk =
    some (0, some (.ok 0x3F40000000000002)) := by decide +kernel

theorem test_getdouble_v_gd_18 : answer 0x44 0x7FFFFFFFFFFFFE000000000000000000 junk =
    some (0, some (.ok 0x43E0000000000000)) := by decide +kernel

theorem test_add_v_add_2 : answer 0x10 0x7FFFFFFFFFFFFFFFFFFFFFFFFFFFFFFF 0x00000000000000000000000000000001 =
    some (0, some (.ok 0x80000000000000000000000000000000)) := by decide +kernel

theorem test_add_v_add_4 : answer 0x10 0x80000000000000000000000000000000 0xFFFFFFFFFFFFFFFFFFFFFFFFFFFFFFFF =
    some (0, some (.ok 0x7FFFFFFFFFFFFFFFFFFFFFFFFFFFFFFF)) := by decide +kernel

theorem test_sub_v_add_7 : answer 0x11 0x00000000000000010000000000000000 0x00000000000000028000000000000000 =
    some (0, some (.ok 0xFFFFFFFFFFFFFFFE8000000000000000)) := by decide +kernel

theorem test_sub_v_add_9 : answer 0x11 0x00000000000000000000000000000000 0x80000000000000000000000000000000 =
    some (0, some (.ok 0x80000000000000000000000000000000)) := by decide +kernel

theorem test_neg_v_neg_1 : answer 0x12 0x00000000000000028000000000000000 junk =
    some (0, some (.ok 0xFFFFFFFFFFFFFFFD8000000000000000)) := by decide +kernel

theorem test_neg_v_neg_2 : answer 0x12 0x80000000000000000000000000000000 junk =
    some (0, some (.ok 0x80000000000000000000000000000000)) := by decide +kernel

theorem test_pos_v_neg_6 : answer 0x13 0x80000000000000000000000000000000 junk =
    some (0, some (.ok 0x80000000000000000000000000000000)) := by decide +kernel

theorem test_eq_v_cmp_1 : answer 0x14 0x00000000000000010000000000000000 0x00000000000000010000000000000000 =
    some (0, some (.ok 1)) := by decide +kernel

theorem test_eq_v_cmp_4 : answer 0x14 0xFFFFFFFFFFFFFFFFFFFFFFFFFFFFFFFF 0x00000000000000000000000000000000 =
    some (0, some (.ok 0)) := by decide +kernel

theorem test_lt_v_cmp_1 : answer 0x15 0x00000000000000010000000000000000 0x00000000000000010000000000000000 =
    some (0, some (.ok 0)) := by decide +kernel

theorem test_lt_v_cmp_4 : answer 0x15 0xFFFFFFFFFFFFFFFFFFFFFFFFFFFFFFFF 0x00000000000000000000000000000000 =
    some (0, some (.ok 1)) := by decide +kernel

theorem test_gt_v_cmp_3 : answer 0x16 0x7FFFFFFFFFFFFFFFFFFFFFFFFFFFFFFF 0x80000000000000000000000000000000 =
    some (0, some (.ok 1)) := by decide +kernel

theorem test_gt_v_cmp_4 : answer 0x16 0xFFFFFFFFFFFFFFFFFFFFFFFFFFFFFFFF 0x00000000000000000000000000000000 =
    some (0, some (.ok 0)) := by decide +kernel

theorem test_gethigh_v_ext_4 : answer 0x40 0xFFFFFFFFFFFFFFFD8000000000000000 junk =
    some (0, some (.ok 0xFFFFFFFFFFFFFFFD)) := by decide +kernel

theorem test_gethigh_v_ext_10 : answer 0x40 0xFFFFFFFFFFFFFFFFFFFFFFFFFFFFFFFF junk =
    some (0, some (.ok 0xFFFFFFFFFFFFFFFF)) := by decide +kernel

theorem test_getlow_v_ext_4 : answer 0x41 0xFFFFFFFFFFFFFFFD8000000000000000 junk =
    some (0, some (.ok 0x8000000000000000)) := by decide +kernel

theorem test_getlow_v_ext_10 : answer 0x41 0xFFFFFFFFFFFFFFFFFFFFFFFFFFFFFFFF junk =
    some (0, some (.ok 0xFFFFFFFFFFFFFFFF)) := by decide +kernel

theorem test_getint_v_ext_4 : answer 0x42 0xFFFFFFFFFFFFFFFD8000000000000000 junk =
    some (0, some (.ok 0xFFFFFFFFFFFFFFFE)) := by decide +kernel

theorem test_getint_v_ext_10 : answer 0x42 0xFFFFFFFFFFFFFFFFFFFFFFFFFFFFFFFF junk =
    some (0, some (.ok 0x0000000000000000)) := by decide +kernel

theorem test_round_v_ext_4 : answer 0x43 0xFFFFFFFFFFFFFFFD8000000000000000 junk =
    some (0, some (.ok 0xFFFFFFFFFFFFFFFD)) := by decide +kernel

theorem test_round_v_ext_14 : answer 0x43 0x7FFFFFFFFFFFFFFF8000000000000000 junk =
    some (0, some (.ok 0x8000000000000000)) := by decide +kernel

theorem test_tobool_nonzero : answer 0x17 0x80000000000000000000000000000000 junk =
    some (0, some (.ok 1)) := by decide +kernel

theorem test_tobool_zero : answer 0x17 0 junk =
    some (0, some (.ok 0)) := by decide +kernel

theorem test_invert_v_inv_5 : answer 0x30 0xFFFFFFFFFFFFFFFF000000003B9ACA00 junk =
    some (0, some (.ok 0x000000044B82FA09B5A52CB98B405448)) := by decide +kernel

theorem test_invert_refuses_one : answer 0x30 1 junk = some (2, some (.fault 2)) := by decide +kernel

theorem test_mulinv_v_inv_14 : answer 0x31 0x4A08DFA03765B90A1A5CDEC343DBBB87 0x33333333333333333333333333333334 =
    some (0, some (.ok 0x0ECE93200B1458353878F95A40C58BE8)) := by decide +kernel

theorem test_mulinv_v_inv_16 : answer 0x31 0x00000000000000010000000000000000 0x80000000000000000000000000000001 =
    some (2, some (.fault 2)) := by decide +kernel

theorem test_umulinv_v_inv_22 : answer 0x32 0xFFFFFFFFFFFFFFFFFFFFFFFFFFFFFFFF 0x7FFFFFFFFFFFFFFFFFFFFFFFFFFFFFFF =
    some (0, some (.ok 0x7FFFFFFFFFFFFFFFFFFFFFFFFFFFFFFD)) := by decide +kernel

theorem test_umulinv_v_inv_23 : answer 0x32 0xFFFFFFFFFFFFFFFFFFFFFFFFFFFFFFFF 0x80000000000000000000000000000001 =
    some (2, some (.fault 2)) := by decide +kernel

/-- V-FLT-1, V-FLT-2: reserved opcodes. -/
theorem test_reserved_v_flt_1_2 : answer 0x0B 0 0 = some (4, some (.fault 4)) ∧ answer 0xFF junk junk = some (4, some (.fault 4)) := by
  decide +kernel

/-- V-FLT-6, V-FLT-7: a halted unit answers the latched code, whatever the opcode. -/
theorem test_halted_v_flt_6_7 :
    (nextOf (step (driven 2 ⟨0x00, 0, 0⟩))).map (fun t => (t.flt, t.rsp)) = some (2, some (.fault 2)) ∧
    (nextOf (step (driven 2 ⟨0xFF, 0, 0⟩))).map (fun t => (t.flt, t.rsp)) = some (2, some (.fault 2)) := by decide +kernel

/-- `withFetchWord` presents the table's word, and the next step runs it: `FROMS8` of 5 is the word of 5 (R71). -/
theorem test_withFetchWord_runs :
    (nextOf (step (State.reset.withFetchWord 264 (5 * 2 ^ 136 + 0x01)))).map (fun t => t.rsp) =
      some (some (.ok 0x00000000000000050000000000000000)) := by decide +kernel

/-- Program S1 of the vectors' kind, as a listing: `t0 = FROMS8 #2; t1 = FROMS8 #3; t2 = MUL t0, t1` leaves 6 in `t2`. -/
theorem test_listing_runs :
    (match runListing [.cmd 0 .froms8 (some (.int 2)) none, .cmd 1 .froms8 (some (.int 3)) none,
        .cmd 2 .mul (some (.temp 0)) (some (.temp 1))] [] State.reset with
      | .next (ts, s) => some (ts.read 2, s.flt)
      | _ => none) = some (0x00000000000000060000000000000000, 0) := by decide +kernel

/-! Witnesses: the hypotheses of each statement are met, and each of its clauses at the boundary of its range. A running
unit (`s.flt = 0`) is `State.reset` throughout; `response i` is what the meaning then answers. -/

theorem reset_running : State.reset.flt = 0 := by decide

theorem witness_ResetIsTheOnlyExitFromHalt :
    (driven 3 ⟨0, 0, 0⟩).flt ≠ 0 ∧
    nextOf (step { flt := 3, host := [⟨true, some ⟨0, 0, 0⟩⟩], rsp := some (.fault 3) }) = some State.reset ∧
    nextOf (step { flt := 0, host := [⟨true, none⟩], rsp := none }) = some State.reset := by decide +kernel

theorem witness_LegalStateKeptByEveryStep :
    (driven 4 ⟨0, 0, 0⟩).legal = true ∧ (driven 0 ⟨0xFF, 0, 0⟩).legal = true ∧
    ({ flt := 0, host := [], rsp := some (.ok 7) } : State).legal = true ∧
    (nextOf (step (driven 4 ⟨0, 0, 0⟩))).isSome = true ∧ (nextOf (step (driven 0 ⟨0xFF, 0, 0⟩))).isSome = true := by
  decide +kernel

theorem witness_FaultRegisterWrittenOnlyByFaultOrReset :
    (nextOf (step (driven 0 ⟨0x21, 1, 0⟩))).map (fun t => t.flt) = some 2 ∧
    (nextOf (step { flt := 2, host := [⟨true, none⟩], rsp := none })).map (fun t => t.flt) = some 0 := by decide +kernel

theorem witness_StepRunsDecodedCommand :
    (driven 0 ⟨0x10, 5, 7⟩).host = [⟨false, some ⟨0x10, 5, 7⟩⟩] ∧ decodeTableWord 264 (5 * 2 ^ 136 + 7 * 2 ^ 8 + 0x10) = some (.add 5 7) := by
  decide +kernel

theorem witness_ReservedOpcodesRaiseIllegalCommand :
    ([0x0B, 0x0F, 0x18, 0x1F, 0x24, 0x2F, 0x33, 0x3F, 0x45, 0xFF].all fun n => answer n 0 0 == some (4, some (.fault 4))) = true ∧
    ([0x00, 0x0A, 0x10, 0x17, 0x20, 0x23, 0x30, 0x32, 0x40, 0x44].all fun n => (mnemonicOf n).isSome) = true := by decide +kernel

theorem witness_HaltedUnitAnswersLatchedCode :
    (driven 1 ⟨0, 0, 0⟩).flt ≠ 0 ∧ (driven 1 ⟨0, 0, 0⟩).host = [⟨false, some ⟨0, 0, 0⟩⟩] := by decide +kernel

theorem witness_HaltedUntilReset :
    (driven 1 ⟨0, 0, 0⟩).flt ≠ 0 ∧ ∀ d ∈ (driven 1 ⟨0, 0, 0⟩).host.take 1, d.rst = false := by decide +kernel

/-- A running unit under `rst`, idle, with a command that completes, with one that faults, with a reserved opcode. -/
theorem witness_SafeStepsOfRunningUnit :
    (nextOf (step { flt := 0, host := [⟨true, some ⟨0xFF, 0, 0⟩⟩], rsp := none })).map (fun t => t.flt) = some 0 ∧
    (nextOf (step State.reset)).map (fun t => t.flt) = some 0 ∧
    answer 0x21 1 1 = some (0, some (.ok Word.one)) ∧ answer 0x21 1 0 = some (2, some (.fault 2)) ∧
    answer 0x45 1 0 = some (4, some (.fault 4)) ∧ reservedOpcode 0x45 = true ∧ reservedOpcode 0x44 = false := by
  decide +kernel

theorem witness_HaltedMeaningsExecuteNothing : ({ State.reset with flt := 4 } : State).flt ≠ 0 := by decide +kernel

theorem witness_LastResponseNeverObserved :
    (driven 0 ⟨0x17, 1, 0⟩).flt = ({ driven 0 ⟨0x17, 1, 0⟩ with rsp := some (.ok 9) } : State).flt ∧
    (driven 0 ⟨0x17, 1, 0⟩).host = ({ driven 0 ⟨0x17, 1, 0⟩ with rsp := some (.ok 9) } : State).host := by decide +kernel

theorem witness_ResultIndependentOfHistory :
    (match Sys2Proof.core.run 1 { State.reset with host := [⟨false, some ⟨0x17, 1, 0⟩⟩, ⟨false, some ⟨0x21, 1, 0⟩⟩] } with
      | .next t => some t.flt
      | _ => none) = some 0 := by decide +kernel

theorem witness_OneResponsePerAcceptedCommand :
    (nextOf (step (driven 0 ⟨0x17, 1, 0⟩))).map (fun t => (t.rspRes, t.rspFlt)) = some (some 1, some 0) ∧
    (nextOf (step (driven 0 ⟨0x21, 1, 0⟩))).map (fun t => (t.rspRes, t.rspFlt)) = some (none, some 2) ∧
    (nextOf (step State.reset)).map (fun t => (t.rspRes, t.rspFlt)) = some (none, none) := by decide +kernel

theorem witness_IdleUnitWaits :
    ({ State.reset with host := [⟨false, none⟩] } : State).host = [⟨false, none⟩] ∧ State.reset.host = [] := by decide +kernel

theorem witness_FaultClassesPerCommand :
    response (.umul (BitVec.ofNat 128 (2 ^ 96)) (BitVec.ofNat 128 (2 ^ 96))) = some (.fault 1) ∧
    response (.udiv 1 0) = some (.fault 2) ∧ response (.udiv Word.one 1) = some (.fault 1) ∧
    response (.invert 1) = some (.fault 2) ∧ response (.fromf64 0x7FF8000000000000) = some (.fault 3) ∧
    response (.neg Word.min) = some (.ok Word.min) := by decide +kernel

theorem witness_EncodeInvertsDecode :
    mnemonicOf 0x01 = some .froms8 ∧ Command.ignoredZero ⟨0x01, 0xFF, 0⟩ .froms8 = true ∧
    mnemonicOf 0x44 = some .getdouble ∧ Command.ignoredZero ⟨0x44, junk, 0⟩ .getdouble = true := by decide +kernel

theorem witness_IgnoredBitsHaveNoEffect :
    mnemonicOf 0x09 = some .fromhilo ∧
    (0 : Word).toNat % 2 ^ Mnemonic.fromhilo.aBits = (BitVec.ofNat 128 (2 ^ 64) : Word).toNat % 2 ^ Mnemonic.fromhilo.aBits ∧
    (5 : Word).toNat % 2 ^ Mnemonic.fromhilo.bBits = (BitVec.ofNat 128 (2 ^ 127 + 5) : Word).toNat % 2 ^ Mnemonic.fromhilo.bBits := by
  decide +kernel

theorem witness_ListingFromDeliversInteger :
    State.reset.flt = 0 ∧ (-2 ^ 63 : Int) ≤ -2 ^ 63 ∧ (-2 ^ 63 : Int) < 2 ^ 63 ∧ (2 ^ 63 - 1 : Int) < 2 ^ 63 := by decide

theorem witness_IntegerConstructorsAreExact :
    State.reset.flt = 0 ∧ response (.froms8 0x80) = some (.ok 0xFFFFFFFFFFFFFF800000000000000000) ∧
    response (.fromu32 0xFFFFFFFF) = some (.ok 0x00000000FFFFFFFF0000000000000000) := by decide +kernel

theorem witness_FromU64ReadsNegativeFromTwoPow63 :
    State.reset.flt = 0 ∧ response (.fromu64 0x7FFFFFFFFFFFFFFF) = some (.ok 0x7FFFFFFFFFFFFFFF0000000000000000) ∧
    response (.fromu64 0x8000000000000000) = some (.ok 0x80000000000000000000000000000000) := by decide +kernel

theorem witness_FromHiLoComposesLimbs : State.reset.flt = 0 := reset_running

/-- `2^63`, `-2^63`, the next pattern below `-2^63`, the largest accepted pattern, infinity (R80). -/
theorem witness_FromF64RoundsMagnitudeHalfUp :
    F64.magnitude 0x43E0000000000000 = 2 ^ 63 ∧ F64.sign 0x43E0000000000000 = false ∧
    response (.fromf64 0x43E0000000000000) = some (.fault 3) ∧
    F64.magnitude 0xC3E0000000000000 = 2 ^ 63 ∧ F64.sign 0xC3E0000000000000 = true ∧
    response (.fromf64 0xC3E0000000000000) = some (.ok Word.min) ∧
    F64.magnitude 0xC3E0000000000001 > 2 ^ 63 ∧ response (.fromf64 0xC3E0000000000001) = some (.fault 3) ∧
    F64.magnitude 0x43DFFFFFFFFFFFFF < 2 ^ 63 ∧
    response (.fromf64 0x43DFFFFFFFFFFFFF) = some (.ok 0x7FFFFFFFFFFFFC000000000000000000) ∧
    F64.exponent 0xFFF0000000000000 = 2047 ∧ response (.fromf64 0xFFF0000000000000) = some (.fault 3) := by decide +kernel

/-- The same boundary patterns, and a half ULP that rounds up on either side of zero (V-F64-10, V-F64-11). -/
theorem witness_FromF64SplitsScalesAndRounds :
    F64.magnitude 0x43E0000000000000 = 2 ^ 63 ∧ F64.sign 0x43E0000000000000 = false ∧
    F64.magnitude 0x43DFFFFFFFFFFFFF < 2 ^ 63 ∧ F64.exponent 0x7FF0000000000000 = 2047 ∧
    response (.fromf64 0x3BE0000000000000) = some (.ok 1) ∧ response (.fromf64 0xBBE0000000000000) = some (.ok (-1)) := by
  decide +kernel

/-- `2^-12` exactly, `-0.0`, `-2^63`. -/
theorem witness_FromF64ExactFromTwoPowMinus12 :
    F64.exponent 0x3F30000000000000 ≠ 2047 ∧ F64.magnitude 0x3F30000000000000 = 1 / 2 ^ 12 ∧
    F64.magnitude 0x3F30000000000000 < 2 ^ 63 ∧
    F64.magnitude 0x8000000000000000 = 0 ∧ F64.exponent 0x8000000000000000 ≠ 2047 ∧
    F64.magnitude 0xC3E0000000000000 = 2 ^ 63 ∧ F64.sign 0xC3E0000000000000 = true ∧
    F64.exponent 0xC3E0000000000000 ≠ 2047 := by decide +kernel

theorem witness_AddSubWrapSilently :
    State.reset.flt = 0 ∧ -2 ^ 127 ≤ Word.min.toInt + Word.max.toInt ∧ Word.min.toInt + Word.max.toInt < 2 ^ 127 ∧
    ¬Word.max.toInt + (1 : Word).toInt < 2 ^ 127 ∧ response (.add Word.max 1) = some (.ok Word.min) ∧
    -2 ^ 127 ≤ (0 : Word).toInt - Word.max.toInt ∧ ¬(0 : Word).toInt - Word.min.toInt < 2 ^ 127 ∧
    response (.sub 0 Word.min) = some (.ok Word.min) := by decide +kernel

theorem witness_NegAndPosAreUnchecked :
    State.reset.flt = 0 ∧ Word.min.toInt = -2 ^ 127 ∧ Word.max.toInt ≠ -2 ^ 127 ∧ response (.neg Word.min) = some (.ok Word.min) := by
  decide +kernel

theorem witness_ComparisonsAreSignedAndTotal :
    State.reset.flt = 0 ∧ Word.min.toInt < Word.max.toInt ∧ response (.lt Word.min Word.max) = some (.ok 1) ∧
    response (.gt Word.min Word.max) = some (.ok 0) := by decide +kernel

theorem witness_FacadeLawsAgree : State.reset.flt = 0 := reset_running

theorem witness_ApplySignIsExactOrFaults :
    applySign (2 ^ 127) true = .ok Word.min ∧ applySign (2 ^ 127) false = .error .arithmeticOverflow ∧
    applySign (2 ^ 127 - 1) false = .ok Word.max ∧ applySign (2 ^ 127 + 1) true = .error .arithmeticOverflow ∧
    applySign (2 ^ 128 - 1) true = .error .arithmeticOverflow := by decide +kernel

/-- `ah * bh = 2^63` completes, `2^64` faults; a sum of `2^128` or more faults (V-UMUL-1, -2, -12). -/
theorem witness_UmulFollowsLimbAlgorithm :
    response (.umul 0x00000000800000000000000000000000 0x00000001000000000000000000000000) = some (.ok Word.min) ∧
    response (.umul 0x00000001000000000000000000000000 0x00000001000000000000000000000000) = some (.fault 1) ∧
    response (.umul 0x8000000000000000FFFFFFFFFFFFFFFF 0x0000000000000001FFFFFFFFFFFFFFFF) = some (.fault 1) := by
  decide +kernel

/-- The first check alone (V-UMUL-6), the range check alone, neither. -/
theorem witness_UmulDeliversMiddleOfProduct :
    response (.umul 0xFFFFFFFFFFFFFFFFFFFFFFFFFFFFFFFF 0x00000000000000010000000000000000) = some (.fault 1) ∧
    response (.umul 0x8000000000000000FFFFFFFFFFFFFFFF 0x0000000000000001FFFFFFFFFFFFFFFF) = some (.fault 1) ∧
    response (.umul 0x4000000000000000FFFFFFFFFFFFFFFF 0x0000000000000002FFFFFFFFFFFFFFFF) =
      some (.ok 0xC000000000000002BFFFFFFFFFFFFFFC) := by decide +kernel

/-- `p = 2^127`: positive faults, negative is `MIN` (V-MUL-8, -9); `p > 2^127` (V-MUL-3); the first check (V-MUL-11). -/
theorem witness_MulIsTruncatedSignedProduct :
    response (.mul 0x00000000800000000000000000000000 0x00000001000000000000000000000000) = some (.fault 1) ∧
    response (.mul 0x00000000800000000000000000000000 0xFFFFFFFF000000000000000000000000) = some (.ok Word.min) ∧
    response (.mul Word.max 0x00000000000000020000000000000000) = some (.fault 1) ∧
    response (.mul Word.min Word.min) = some (.fault 1) := by decide +kernel

theorem witness_MulIdentityZeroAndBoundary :
    State.reset.flt = 0 ∧ Word.hi 0x40000000000000000000000000000000 = 0x4000000000000000 ∧
    Word.hi 0x4000000000000000FFFFFFFFFFFFFFFF = 0x4000000000000000 := by decide +kernel

theorem witness_MulSignLaw :
    Word.one ≠ 0 ∧ Word.one ≠ Word.min ∧ response (.mul Word.max Word.one) = some (.ok Word.max) ∧ Word.max ≠ Word.min ∧
    response (.mul Word.min Word.one) = some (.ok Word.min) := by decide +kernel

/-- The zero word; quotients `2^64` and `2^64 - 1` (V-UDIV-11, -13, -12). -/
theorem witness_UdivFaultsOrCompletes :
    response (.udiv 5 0) = some (.fault 2) ∧ response (.udiv 0x00000000000000010000000000000000 1) = some (.fault 1) ∧
    response (.udiv 0x0000000000000000FFFFFFFFFFFFFFFF 1) = some (.ok 0xFFFFFFFFFFFFFFFF0000000000000000) := by decide +kernel

/-- `b = 2^127`; an even `b` above it (V-UDIV-18); the largest quotient. -/
theorem witness_UdivIsExactTruncatedQuotient :
    (0 < Word.min.toNat ∧ Word.min.toNat ≤ 2 ^ 127 ∧ Word.max.toNat / Word.min.toNat < 2 ^ 64) ∧
    (0xFFFFFFFFFFFFFFFFFFFFFFFFFFFFFFFE : Word).toNat % 2 = 0 ∧
    (0x0000000000000000FFFFFFFFFFFFFFFF : Word).toNat / (1 : Word).toNat < 2 ^ 64 := by decide +kernel

theorem witness_UdivInexactAboveTwoPow127 : State.reset.flt = 0 := reset_running

/-- Zero divisor with `MIN` (V-FLT-5); `q = 2^127` positive and negative (V-DIV-9, -10); `q > 2^127` (V-DIV-16). -/
theorem witness_DivIsTruncatedSignedQuotient :
    response (.div Word.min 0) = some (.fault 2) ∧
    response (.div 0x40000000000000000000000000000000 Word.half) = some (.fault 1) ∧
    response (.div 0xC0000000000000000000000000000000 Word.half) = some (.ok Word.min) ∧
    response (.div Word.min 0x0000000000000000FFFFFFFFFFFFFFFF) = some (.fault 1) := by decide +kernel

theorem witness_DivIdentityAndSignLaws :
    (Word.max ≠ 0 ∧ Word.max ≠ Word.min ∧ Word.one ≠ Word.min ∧ Word.max ≠ Word.min) ∧
    response (.div Word.max Word.one) = some (.ok Word.max) := by decide +kernel

theorem witness_UmulinvApproximatesFromBelow :
    response (.umulinv Word.one 0x80000000000000000000000000000001) = some (.fault 2) ∧
    response (.umulinv 0xFFFFFFFFFFFFFFFFFFFFFFFFFFFFFFFF Word.min) = some (.ok Word.max) := by decide +kernel

theorem witness_InvertIsCeilingOfReciprocal :
    response (.invert 0) = some (.fault 2) ∧ response (.invert 1) = some (.fault 2) ∧
    response (.invert 2) = some (.ok Word.min) ∧
    response (.invert 0xFFFFFFFFFFFFFFFF) = some (.ok 0x00000000000000010000000000000002) := by decide +kernel

theorem witness_MulinvTakesSignOfA :
    response (.mulinv Word.one 0x80000000000000000000000000000001) = some (.fault 2) ∧
    response (.mulinv Word.min Word.min) = some (.ok 0xC0000000000000000000000000000000) ∧
    response (.mulinv Word.one 0) = some (.ok 0) := by decide +kernel

/-- The smallest divisor; V-INV-14, where the two differ by one. -/
theorem witness_MulinvWithinOneUlpOfQuotient :
    State.reset.flt = 0 ∧ 1 < (2 : BitVec 64).toNat ∧ response (.invert 5) = some (.ok 0x33333333333333333333333333333334) := by
  decide +kernel

theorem witness_ReciprocalLaw :
    1 < (2 : BitVec 64).toNat ∧ (0x7FFFFFFFFFFFFFFF : BitVec 64).toNat < 2 ^ 63 ∧ ¬(0x8000000000000000 : BitVec 64).toNat < 2 ^ 63 := by
  decide +kernel

theorem witness_GetHighIsFloor : State.reset.flt = 0 := reset_running

theorem witness_GetLowIsFractionAboveFloor : State.reset.flt = 0 := reset_running

theorem witness_GetIntTruncatesTowardZero : State.reset.flt = 0 := reset_running

/-- `-2^-64`, `2^63 - 1/2` and the word below it (V-EXT-10, -14, -15). -/
theorem witness_RoundTiesAwayFromZero :
    Word.val 0xFFFFFFFFFFFFFFFFFFFFFFFFFFFFFFFF < 0 ∧ Word.val 0x7FFFFFFFFFFFFFFF8000000000000000 ≥ 2 ^ 63 - 1 / 2 ∧
    ¬Word.val 0x7FFFFFFFFFFFFFFF7FFFFFFFFFFFFFFF ≥ 2 ^ 63 - 1 / 2 ∧
    response (.round 0x7FFFFFFFFFFFFFFF7FFFFFFFFFFFFFFF) = some (.ok 0x00000000000000007FFFFFFFFFFFFFFF) := by decide +kernel

theorem witness_IntegerRoundTrip : State.reset.flt = 0 := reset_running

/-- The zero word; the least and the greatest magnitude (V-GD-11, V-GD-6). -/
theorem witness_GetDoubleIsNearestTiesToEven :
    response (.getdouble 0) = some (.ok 0) ∧ (1 : Word) ≠ 0 ∧ response (.getdouble 1) = some (.ok 0x3BF0000000000000) ∧
    response (.getdouble Word.max) = some (.ok 0x43E0000000000000) := by decide +kernel

theorem witness_GetDoubleExactTo53Bits :
    State.reset.flt = 0 ∧ Word.min ≠ 0 ∧ Word.min.toInt.natAbs = 1 * 2 ^ 127 ∧ 1 < 2 ^ 53 ∧
    (0x001FFFFFFFFFFFFF : Word).toInt.natAbs = (2 ^ 53 - 1) * 2 ^ 0 := by decide +kernel

/-- `-0.0`, `2^-12` and `-2^63`: the statement's premises are those of `FromF64ExactFromTwoPowMinus12`. -/
theorem witness_DoubleRoundTrip :
    F64.magnitude 0x8000000000000000 = 0 ∧ F64.magnitude 0x3F30000000000000 = 1 / 2 ^ 12 ∧
    F64.magnitude 0xC3E0000000000000 = 2 ^ 63 ∧ F64.sign 0xC3E0000000000000 = true ∧
    response (.fromf64 0xC3E0000000000000) = some (.ok Word.min) ∧
    response (.getdouble Word.min) = some (.ok 0xC3E0000000000000) := by decide +kernel

end Sys2Proof.Tests
end

/-! The output ports read off the response field, and the fault register after one step (R12, R18, R19). -/

namespace Sys2Proof.Machine

@[simp] theorem rspValid_eq_true_iff (s : State) : s.rspValid = true ↔ s.rsp ≠ none := by
  simp [State.rspValid, Option.isSome_iff_ne_none]

@[simp] theorem rspValid_eq_false_iff (s : State) : s.rspValid = false ↔ s.rsp = none := by simp [State.rspValid]

@[simp] theorem rspFlt_of_rsp_none {s : State} (h : s.rsp = none) : s.rspFlt = none := by simp [State.rspFlt, h]

@[simp] theorem rspFlt_of_rsp_ok {s : State} {w : Word} (h : s.rsp = some (.ok w)) : s.rspFlt = some 0 := by
  simp [State.rspFlt, h]

@[simp] theorem rspFlt_of_rsp_fault {s : State} {c : BitVec 3} (h : s.rsp = some (.fault c)) : s.rspFlt = some c := by
  simp [State.rspFlt, h]

@[simp] theorem rspRes_of_rsp_none {s : State} (h : s.rsp = none) : s.rspRes = none := by simp [State.rspRes, h]

theorem rst_eq_false_of_accepted {s : State} {c : Command} (h : s.accepted = some c) : s.rst = false :=
  ((accepted_eq_some_iff s c).1 h).1

/-- A latched code is one of 1 to 4 (R12). -/
theorem one_le_code_and_code_le_four (c : Cause) : 1 ≤ c.code.toNat ∧ c.code.toNat ≤ 4 :=
  ⟨Nat.pos_of_ne_zero fun h => code_ne_zero c (BitVec.eq_of_toNat_eq h), of_decide_eq_true (code_legal c)⟩

/-- `step_cases` read backwards: which states can come next. -/
theorem next_state_cases {s t : State} (h : step s = .next t) :
    (s.rst = true ∧ t = s.advance.applyReset) ∨
    (s.rst = false ∧ s.accepted = none ∧ t = s.advance) ∨
    (∃ c, s.accepted = some c ∧ s.flt ≠ 0 ∧ t = s.advance.answerHalted) ∨
    (∃ c w, s.accepted = some c ∧ s.flt = 0 ∧ t = s.advance.complete w) ∨
    (∃ c f, s.accepted = some c ∧ s.flt = 0 ∧ t = s.advance.raise f) := by
  simpa [h] using step_cases s

/-- Whatever a step answers, the response's `rsp_flt` is `FLT` after the step (R12, R32). -/
theorem rspFlt_eq_flt_of_step {s t : State} (h : step s = .next t) (hv : t.rspValid = true) :
    t.rspFlt = some t.flt := by
  rcases next_state_cases h with ⟨-, rfl⟩ | ⟨-, -, rfl⟩ | ⟨_, -, -, rfl⟩ | ⟨_, _, -, hrun, rfl⟩ | ⟨_, _, -, -, rfl⟩
  · simp at hv
  · simp at hv
  · exact rspFlt_of_rsp_fault rfl
  · exact (rspFlt_of_rsp_ok rfl).trans (congrArg some hrun.symm)
  · exact rspFlt_of_rsp_fault rfl

theorem flt_eq_zero_of_step_of_rst {s t : State} (h : step s = .next t) (hr : s.rst = true) : t.flt = 0 := by
  have ht : t = s.advance.applyReset := by simpa [step_reset hr, eq_comm] using h
  rw [ht, applyReset_flt]

/-- The only two writers of `FLT` (R12): `rst`, and a faulting command of a running unit. -/
theorem writer_of_flt_ne {s t : State} (h : step s = .next t) (hne : t.flt ≠ s.flt) :
    (s.rst = true ∧ t.flt = 0) ∨
    (s.rst = false ∧ s.flt = 0 ∧ (∃ c, s.accepted = some c) ∧ t.rsp = some (.fault t.flt) ∧
      1 ≤ t.flt.toNat ∧ t.flt.toNat ≤ 4) := by
  rcases next_state_cases h with ⟨hr, rfl⟩ | ⟨-, -, rfl⟩ | ⟨_, -, -, rfl⟩ | ⟨_, _, -, -, rfl⟩ | ⟨c, f, ha, hrun, rfl⟩
  · exact .inl ⟨hr, rfl⟩
  · exact absurd (advance_flt s) hne
  · exact absurd (advance_flt s) hne
  · exact absurd (advance_flt s) hne
  · exact .inr ⟨rst_eq_false_of_accepted ha, hrun, ⟨c, ha⟩, rfl, one_le_code_and_code_le_four f⟩

end Sys2Proof.Machine

section
open Sys2Proof Sys2Proof.Machine

/-- Settles O1: the reset state's two fields are given, and each output is read off one of them. -/
theorem resetLeavesUnitRunning : Obligations.ResetLeavesUnitRunning :=
  ⟨reset_flt, (halted_eq_false_iff _).2 reset_flt, (rspValid_eq_false_iff _).2 reset_rsp,
    rspRes_of_rsp_none reset_rsp, rspFlt_of_rsp_none reset_rsp⟩

/-- Settles O5, from the five things one step can do. -/
theorem faultRegisterWrittenOnlyByFaultOrReset : Obligations.FaultRegisterWrittenOnlyByFaultOrReset :=
  ⟨reset_flt, rfl, rfl, rfl, rfl, fun _ t h =>
    ⟨halted_eq_true_iff t, rspFlt_eq_flt_of_step h, flt_eq_zero_of_step_of_rst h, writer_of_flt_ne h⟩⟩

end

/-! The reserved opcodes are the ones the map does not list (R33, R34), and what a presented command's step sees. -/

namespace Sys2Proof

/-- The reserved ranges of R34 as inequalities; the last one ends where 8 bits do. -/
theorem reservedOpcode_eq_true_iff (op : BitVec 8) :
    reservedOpcode op = true ↔
      (0x0B ≤ op.toNat ∧ op.toNat ≤ 0x0F) ∨ (0x18 ≤ op.toNat ∧ op.toNat ≤ 0x1F) ∨
      (0x24 ≤ op.toNat ∧ op.toNat ≤ 0x2F) ∨ (0x33 ≤ op.toNat ∧ op.toNat ≤ 0x3F) ∨
      (0x45 ≤ op.toNat ∧ op.toNat ≤ 0xFF) := by
  have hop : op.toNat ≤ 0xFF := Nat.le_of_lt_succ op.isLt
  simp [reservedOpcode, hop, or_assoc]

/-- The opcode column of R33, read downwards, is the list of all opcodes with R34's ranges struck out. -/
theorem opcodeTable_map_opcode :
    opcodeTable.map Mnemonic.opcode =
      ((List.range 256).map (BitVec.ofNat 8)).filter fun op => !reservedOpcode op := by decide

theorem mem_opcodeTable_map_opcode_iff (op : BitVec 8) :
    op ∈ opcodeTable.map Mnemonic.opcode ↔ reservedOpcode op = false := by
  have hall : op ∈ (List.range 256).map (BitVec.ofNat 8) :=
    List.mem_map.2 ⟨op.toNat, List.mem_range.2 op.isLt, by simp⟩
  simp [opcodeTable_map_opcode, List.mem_filter, hall]

/-- The look-up fails exactly on the reserved opcodes (R34). -/
theorem mnemonicOf_eq_none_iff (op : BitVec 8) : mnemonicOf op = none ↔ reservedOpcode op = true := by
  have hmem := mem_opcodeTable_map_opcode_iff op
  rw [← not_iff_not, Bool.not_eq_true, ← hmem]
  simp [mnemonicOf, List.find?_eq_none]

theorem decode_of_reservedOpcode {c : Command} (h : reservedOpcode c.op = true) :
    decode c = .error (.reserved c.op) :=
  decode_of_reserved ((mnemonicOf_eq_none_iff c.op).2 h)

theorem exists_decode_of_not_reservedOpcode {c : Command} (h : reservedOpcode c.op ≠ true) :
    ∃ i, decode c = .ok i := by
  obtain ⟨m, hm⟩ := Option.ne_none_iff_exists'.1 (mt (mnemonicOf_eq_none_iff c.op).1 h)
  exact ⟨_, decode_of_mnemonicOf hm⟩

end Sys2Proof

namespace Sys2Proof.Machine

theorem accepted_of_host {s : State} {c : Command} {rest : List Drive} (h : s.host = ⟨false, some c⟩ :: rest) :
    s.accepted = some c :=
  (accepted_eq_some_iff s c).2 ⟨by rw [State.rst, drive_of_host h], by rw [drive_of_host h]⟩

/-- Fault entry on the state the host has moved on from, all fields written out (R115). -/
theorem advance_raise_of_host {s : State} {d : Drive} {rest : List Drive} (h : s.host = d :: rest) (f : Cause) :
    s.advance.raise f = { flt := f.code, host := rest, rsp := some (.fault f.code) } := by
  simp [State.raise, h]

end Sys2Proof.Machine

section
open Sys2Proof Sys2Proof.Machine

/-- Settles O8: the ranges are the opcodes missing from the map, so there, and only there, the decoder rejects. -/
theorem reservedOpcodesRaiseIllegalCommand : Obligations.ReservedOpcodesRaiseIllegalCommand := by
  refine ⟨by decide +kernel, fun s c rest hrun hhost hres => ?_, fun c hres => ?_⟩
  · have hdec := decode_of_reservedOpcode ((reservedOpcode_eq_true_iff c.op).2 hres)
    rw [step_reserved (accepted_of_host hhost) hrun hdec, advance_raise_of_host hhost]
    rfl
  · exact exists_decode_of_not_reservedOpcode (mt (reservedOpcode_eq_true_iff c.op).1 hres)

end

/-! How a claim about one command is reached: its opcode row (R33), and the computation its meaning performs. -/

namespace Sys2Proof.Machine

/-- Each row of the map decodes to its mnemonic's instruction, whatever the buses hold (R31, R33). -/
theorem decodes_build (m : Mnemonic) : Decodes m.opcode m.build := fun _ _ =>
  decode_of_mnemonicOf (mnemonicOf_opcode m)

theorem completes_of_perform {i : Instr} {s : State} {r : Except Cause Word} {w : Word} (hi : exec i s = perform s r)
    (hr : r = .ok w) (hrun : s.flt = 0) : Completes i s w := by
  rw [Completes, hi, hr, perform_ok w hrun, State.complete]

theorem raises_of_perform {i : Instr} {s : State} {r : Except Cause Word} {c : Cause} (hi : exec i s = perform s r)
    (hr : r = .error c) (hrun : s.flt = 0) : Raises i s c.code := by
  rw [Raises, hi, hr, perform_error c hrun, State.raise]

theorem exec_umul (a b : Word) (s : State) :
    exec (.umul a b) s = perform s ((umul a.toNat b.toNat).map placeWord) := rfl

theorem exec_mul (a b : Word) (s : State) : exec (.mul a b) s = perform s (mulWords a b) := rfl

/-! The normalizer's bound (R40). -/

/-- The bound of `absWord_le` is reached at `MIN` alone: the only signed word at distance `2^127` from 0. -/
theorem absWord_eq_two_pow_127_iff (x : Word) : absWord x = 2 ^ 127 ↔ x = Word.min := by
  constructor
  · intro h
    rw [absWord_eq_natAbs] at h
    have hlt : x.toInt < 2 ^ 127 := BitVec.toInt_lt
    have hmin : Word.min.toInt = -2 ^ 127 := by decide
    exact BitVec.eq_of_toInt_eq (by omega)
  · rintro rfl
    decide

/-! The unsigned multiplier (R42): its sum, its two checks, and the signed command over it (R43). -/

/-- The sum `Umul` forms from the four limb products (R42). -/
def limbSum (x y : Nat) : Nat :=
  loLimb x * loLimb y / 2 ^ 64 + (hiLimb x * loLimb y + loLimb x * hiLimb y) + hiLimb x * hiLimb y * 2 ^ 64

/-- Only the lowest limb product has digits below the 64th, so the sum is the whole product cut there (R44). -/
theorem limbSum_eq_mul_div (x y : Nat) : limbSum x y = x * y / 2 ^ 64 := by
  have hprod : x * y = loLimb x * loLimb y +
      (hiLimb x * loLimb y + loLimb x * hiLimb y + hiLimb x * hiLimb y * 2 ^ 64) * 2 ^ 64 := by
    conv_lhs => rw [← limbs_eq x, ← limbs_eq y]
    ring
  rw [hprod, Nat.add_mul_div_right _ _ (by decide), limbSum, Nat.add_assoc]

/-- Either of the two checks fires (R42). -/
theorem umul_error {x y : Nat} (h : hiLimb x * hiLimb y > 2 ^ 63 ∨ limbSum x y ≥ 2 ^ 128) :
    umul x y = .error .arithmeticOverflow := by
  unfold umul
  by_cases hfirst : hiLimb x * hiLimb y > 2 ^ 63
  · exact if_pos hfirst
  · exact (if_neg hfirst).trans (if_pos (h.resolve_left hfirst))

/-- Neither of the two checks fires (R42). -/
theorem umul_ok {x y : Nat} (h : ¬(hiLimb x * hiLimb y > 2 ^ 63 ∨ limbSum x y ≥ 2 ^ 128)) :
    umul x y = .ok (limbSum x y) := by
  obtain ⟨hfirst, hsum⟩ := not_or.1 h
  exact (if_neg hfirst).trans (if_neg hsum)

theorem raises_umul {s : State} {a b : Word} (hrun : s.flt = 0)
    (h : hiLimb a.toNat * hiLimb b.toNat > 2 ^ 63 ∨ limbSum a.toNat b.toNat ≥ 2 ^ 128) : Raises (.umul a b) s 1 :=
  raises_of_perform (exec_umul a b s) (congrArg (Except.map placeWord) (umul_error h)) hrun

theorem completes_umul {s : State} {a b : Word} (hrun : s.flt = 0)
    (h : ¬(hiLimb a.toNat * hiLimb b.toNat > 2 ^ 63 ∨ limbSum a.toNat b.toNat ≥ 2 ^ 128)) :
    Completes (.umul a b) s (BitVec.ofNat 128 (limbSum a.toNat b.toNat)) :=
  completes_of_perform (exec_umul a b s) (congrArg (Except.map placeWord) (umul_ok h)) hrun

/-- Past the core's first check, `MUL` is the sign step on the truncated product of the magnitudes (R43): where the core's
sum reaches `2^128`, the sign step, whose range ends at `2^127`, would raise the same fault. -/
theorem mulWords_eq_applySign {a b : Word} (hfirst : ¬hiLimb a.toInt.natAbs * hiLimb b.toInt.natAbs > 2 ^ 63) :
    mulWords a b = applySign (a.toInt.natAbs * b.toInt.natAbs / 2 ^ 64)
      (decide (a.toInt < 0) != decide (b.toInt < 0)) := by
  rw [← limbSum_eq_mul_div]
  by_cases hsum : limbSum a.toInt.natAbs b.toInt.natAbs ≥ 2 ^ 128
  · rw [mulWords_of_error (umul_error (.inr hsum)), applySign_error (.inl (Nat.lt_of_lt_of_le (by decide) hsum))]
  · exact mulWords_of_ok (umul_ok (not_or.2 ⟨hfirst, hsum⟩))

end Sys2Proof.Machine

section
open Sys2Proof Sys2Proof.Machine

/-- Settles O38: the core's first check faults; past it the sign step decides, on the truncated product. -/
theorem mulIsTruncatedSignedProduct : Obligations.MulIsTruncatedSignedProduct := by
  refine ⟨decodes_build .mul, fun s a b hrun => ?_⟩
  dsimp only
  by_cases hfirst : hiLimb a.toInt.natAbs * hiLimb b.toInt.natAbs > 2 ^ 63
  · rw [if_pos (.inl hfirst)]
    exact raises_of_perform (exec_mul a b s) (mulWords_of_error (umul_error (.inl hfirst))) hrun
  · have hmul := mulWords_eq_applySign hfirst
    split
    next hfault =>
      have hrange := hfault.resolve_left hfirst
      exact raises_of_perform (exec_mul a b s) (hmul.trans (applySign_error hrange)) hrun
    next hfits =>
      obtain ⟨w, hw, hval⟩ := applySign_ok (not_or.1 hfits).2
      exact ⟨w, completes_of_perform (exec_mul a b s) (hmul.trans hw) hrun, hval⟩

/-- Settles O34: the normalizer read in integers, and the bound on its magnitudes with the one word that reaches it. -/
theorem normalizerYieldsMagnitudes : Obligations.NormalizerYieldsMagnitudes := fun a b =>
  ⟨normalizeSigns_eq a b, absWord_le a, absWord_le b, absWord_eq_two_pow_127_iff a, absWord_eq_natAbs a⟩

/-- Settles O35, on either side of the signed range's end. -/
theorem applySignIsExactOrFaults : Obligations.ApplySignIsExactOrFaults := by
  intro m negative _
  split
  next hfault => exact applySign_error hfault
  next hfits => exact applySign_ok hfits

/-- Settles O36: the rule's limbs are the model's, and its sum is `limbSum`. -/
theorem umulFollowsLimbAlgorithm : Obligations.UmulFollowsLimbAlgorithm := by
  refine ⟨decodes_build .umul, fun s a b hrun => ?_⟩
  dsimp only
  split
  next hfault => exact raises_umul hrun hfault
  next hfits => exact completes_umul hrun hfits

end

/-! The unsigned divider is exact on every denominator up to `2^127` and every even one (R50 (d), R51). Each loop keeps the
value `a * 2^digits / b = result + rem / (den * 2^shift)`, and each pass of the outer one extracts its next whole part. -/

namespace Sys2Proof.Machine

theorem exec_div (a b : Word) (s : State) : exec (.div a b) s = perform s (divWords a b) := rfl

theorem rem128_eq_mod (x y : Nat) : rem128 x y = x % y := by
  rw [rem128, Nat.mod_def]

/-- With no room left, or a remainder no denominator up to `2^127` exceeds, the second inner loop shifts out zero bits
only: its `rem < den` clause never fires (R50 (d)). -/
theorem denLoop_exact {digits rem : Nat} : ∀ {fuel shift den : Nat}, den ≤ 2 ^ 127 →
    (digits + shift = 64 ∨ 2 ^ 127 ≤ rem) →
    (denLoop digits rem fuel shift den).2 * 2 ^ (denLoop digits rem fuel shift den).1 = den * 2 ^ shift
  | 0, _, _, _, _ => rfl
  | fuel + 1, shift, den, hden, hrem => by
    unfold denLoop
    split
    next hguard =>
      have heven : shr128 den 1 * 2 = den := by unfold shr128; omega
      rw [denLoop_exact (by omega) (.inr (by omega)), Nat.pow_succ', ← Nat.mul_assoc, heven]
    next => rfl

/-- One pass, with `k` bits shifted into the remainder and `j` zero bits out of the denominator. -/
theorem divPass_eq {d : DivState} (h : DivReady d) (hrem : d.rem ≠ 0) (hden : d.den ≤ 2 ^ 127) :
    ∃ k j den, den * 2 ^ j = d.den ∧ d.digits + (d.shift + k + j) ≤ 64 ∧
      divPass d =
        { result := (d.result * 2 ^ (d.shift + k + j) + d.rem * 2 ^ k / den) % 2 ^ 128
          rem := d.rem * 2 ^ k % den
          den := den
          digits := d.digits + (d.shift + k + j)
          shift := 0 } := by
  obtain ⟨k, hshift, hrem', -, hroom, hstop⟩ :=
    remLoop_spec d.digits 64 d.shift d.rem h.room (Nat.le_add_left _ _) h.small
  obtain ⟨j, hshift', hden', -, hroom', -⟩ :=
    denLoop_spec d.digits (d.rem * 2 ^ k) (Nat.mul_ne_zero hrem (by positivity)) 64 (d.shift + k) d.den hroom
      (Nat.le_add_left _ _) h.den_ne
  have hexact := denLoop_exact (fuel := 64) hden hstop
  rw [hshift', hden', Nat.pow_add, Nat.mul_comm (2 ^ _), ← Nat.mul_assoc] at hexact
  refine ⟨k, j, d.den / 2 ^ j, Nat.eq_of_mul_eq_mul_right (by positivity) hexact, hroom', ?_⟩
  simp only [divPass, hshift, hrem', hshift', hden', rem128_eq_mod, div128]

/-- A fraction `x / b` written over `den` as a whole part and a proper rest has that whole part. -/
theorem div_eq_of_mul_eq {x b den q r : Nat} (hb : 0 < b) (hr : r < den) (h : x * den = b * (q * den + r)) :
    x / b = q := by
  have hden : 0 < den := Nat.zero_lt_of_lt hr
  calc x / b = x * den / (b * den) := (Nat.mul_div_mul_right x b hden).symm
    _ = (q * den + r) / den := by rw [h, Nat.mul_div_mul_left _ _ hb]
    _ = q := by rw [Nat.add_comm, Nat.add_mul_div_right _ _ hden, Nat.div_eq_of_lt hr, Nat.zero_add]

/-- The working values of a division of `a` by `b` that has lost nothing so far (R51). -/
structure DivExact (a b : Nat) (d : DivState) : Prop where
  den_le : d.den ≤ 2 ^ 127
  rem_lt : d.rem < d.den * 2 ^ d.shift
  value : a * 2 ^ d.digits * (d.den * 2 ^ d.shift) = b * (d.result * (d.den * 2 ^ d.shift) + d.rem)

/-- The digits produced so far are those of the exact quotient. -/
theorem DivExact.div_eq_result {a b : Nat} {d : DivState} (h : DivExact a b d) (hb : 0 < b) :
    a * 2 ^ d.digits / b = d.result :=
  div_eq_of_mul_eq hb h.rem_lt h.value

/-- A quotient whose integer part fits in 64 bits fits in 128 with up to 64 digits behind it (R50 (b)). -/
theorem mul_pow_div_lt {a b digits : Nat} (hb : 0 < b) (ha : a / b < 2 ^ 64) (hdigits : digits ≤ 64) :
    a * 2 ^ digits / b < 2 ^ 128 := by
  rw [Nat.div_lt_iff_lt_mul hb] at ha ⊢
  calc a * 2 ^ digits ≤ a * 2 ^ 64 := Nat.mul_le_mul_left a (Nat.pow_le_pow_right (by decide) hdigits)
    _ < 2 ^ 64 * b * 2 ^ 64 := Nat.mul_lt_mul_of_pos_right ha (by decide)
    _ = 2 ^ 128 * b := by ring

/-- The first division and the strip lose nothing, and an even denominator is halved at least once. -/
theorem divStart_exact {a b : Nat} (hb : 0 < b) (hb' : b < 2 ^ 128) (hden : b ≤ 2 ^ 127 ∨ b % 2 = 0) :
    DivExact a b (divStart a b) := by
  obtain ⟨k, hshift, hstrip, -, hstop⟩ := stripLoop_spec 64 0 b rfl
  have hscale : (stripLoop 64 0 b).2 * 2 ^ (stripLoop 64 0 b).1 = b := by rw [hshift, Nat.zero_add, hstrip]
  refine ⟨?_, ?_, ?_⟩ <;> simp only [divStart, hscale, rem128_eq_mod, div128]
  · cases k with
    | zero => omega
    | succ k =>
      have hhalf : (stripLoop 64 0 b).2 * 2 ≤ b := by
        conv_rhs => rw [← hstrip]
        exact Nat.mul_le_mul_left _ (Nat.le_self_pow (Nat.succ_ne_zero k) 2)
      omega
  · exact Nat.mod_lt a hb
  · rw [Nat.div_add_mod', Nat.pow_zero, Nat.mul_one, Nat.mul_comm]

/-- A pass keeps the value: the wrap at `2^128` never bites, for the accumulator is the quotient's first digits. -/
theorem divPass_exact {a b : Nat} {d : DivState} (hb : 0 < b) (ha : a / b < 2 ^ 64) (hready : DivReady d)
    (h : DivExact a b d) (hrem : d.rem ≠ 0) : DivExact a b (divPass d) := by
  obtain ⟨k, j, den, hden, hroom, hpass⟩ := divPass_eq hready hrem h.den_le
  have hdenpos : 0 < den := Nat.pos_of_ne_zero (left_ne_zero_of_mul (hden ▸ hready.den_ne))
  have hlt : d.rem * 2 ^ k % den < den := Nat.mod_lt _ hdenpos
  have hvalue : a * 2 ^ (d.digits + (d.shift + k + j)) * den =
      b * ((d.result * 2 ^ (d.shift + k + j) + d.rem * 2 ^ k / den) * den + d.rem * 2 ^ k % den) := by
    rw [Nat.add_mul, Nat.add_assoc (_ * den), Nat.div_add_mod']
    have hscaled := congrArg (· * 2 ^ k) h.value
    simp only [← hden] at hscaled
    calc _ = a * 2 ^ d.digits * (den * 2 ^ j * 2 ^ d.shift) * 2 ^ k := by ring
      _ = _ := hscaled
      _ = _ := by ring
  have hwrap := div_eq_of_mul_eq hb hlt hvalue ▸ mul_pow_div_lt hb ha hroom
  rw [hpass]
  refine ⟨?_, ?_, ?_⟩ <;> simp only [Nat.mod_eq_of_lt hwrap, Nat.pow_zero, Nat.mul_one]
  · exact (Nat.le_of_dvd (Nat.pos_of_ne_zero hready.den_ne) ⟨_, hden.symm⟩).trans h.den_le
  · exact hlt
  · exact hvalue

theorem divLoop_exact {a b : Nat} (hb : 0 < b) (ha : a / b < 2 ^ 64) : ∀ (fuel : Nat) {d : DivState},
    DivReady d → DivExact a b d → DivExact a b (divLoop fuel d)
  | 0, _, _, h => h
  | fuel + 1, d, hready, h => by
    unfold divLoop
    split
    next hguard =>
      have hnext := (divPass_ready hready hguard.1 hguard.2).1
      exact divLoop_exact hb ha fuel hnext (divPass_exact hb ha hready h hguard.2)
    next => exact h

/-- What the final alignment delivers: once the remainder is used up, the missing digits are zeros. -/
theorem DivExact.align_eq {a b : Nat} {d : DivState} (h : DivExact a b d) (hb : 0 < b) (ha : a / b < 2 ^ 64)
    (hexit : d.digits = 64 ∨ d.rem = 0) (hdigits : d.digits ≤ 64) :
    (if d.digits < 64 then shl128 d.result (64 - d.digits) else d.result) = a * 2 ^ 64 / b := by
  split
  next hlt =>
    have hrem : d.rem = 0 := hexit.resolve_left hlt.ne
    have hwhole : a * 2 ^ d.digits = b * d.result := by
      have hvalue := h.value
      rw [hrem, Nat.add_zero, ← Nat.mul_assoc b] at hvalue
      exact Nat.eq_of_mul_eq_mul_right (Nat.zero_lt_of_lt h.rem_lt) hvalue
    have hquo : a * 2 ^ 64 / b = d.result * 2 ^ (64 - d.digits) := by
      rw [← Nat.add_sub_of_le hdigits, Nat.pow_add, ← Nat.mul_assoc, hwhole, Nat.mul_assoc,
        Nat.mul_div_cancel_left _ hb, Nat.add_sub_of_le hdigits]
    rw [shl128, ← hquo, Nat.mod_eq_of_lt (mul_pow_div_lt hb ha (Nat.le_refl _))]
  next hge =>
    rw [← h.div_eq_result hb, Nat.le_antisymm hdigits (Nat.not_lt.1 hge)]

/-! The three ways `Udiv` ends (R50, R51), and the signed command over it (R52). -/

theorem udiv_zero (a : Nat) : udiv a 0 = .error .invalidDivisor := if_pos rfl

theorem udiv_overflow {a b : Nat} (hb : b ≠ 0) (ha : a / b ≥ 2 ^ 64) : udiv a b = .error .arithmeticOverflow :=
  (if_neg hb).trans (if_pos ha)

theorem udiv_eq_div {a b : Nat} (ha' : a < 2 ^ 128) (hb : b ≠ 0) (hb' : b < 2 ^ 128) (hden : b ≤ 2 ^ 127 ∨ b % 2 = 0)
    (ha : a / b < 2 ^ 64) : udiv a b = .ok (a * 2 ^ 64 / b) := by
  have hpos := Nat.pos_of_ne_zero hb
  obtain ⟨hexit, hdigits⟩ := udiv_loop_exit ha' hb
  have hloop := divLoop_exact hpos ha 64 (divStart_ready ha' hb) (divStart_exact hpos hb' hden)
  rw [← hloop.align_eq hpos ha hexit hdigits]
  exact (if_neg hb).trans (if_neg (Nat.not_le.2 ha))

theorem natAbs_toInt_le (x : Word) : x.toInt.natAbs ≤ 2 ^ 127 := absWord_eq_natAbs x ▸ absWord_le x

/-- By a nonzero word, `DIV` is the sign step on the truncated quotient of the magnitudes: where the core refuses a
quotient of more than 128 bits, the sign step, whose range ends at `2^127`, would raise the same fault. -/
theorem divWords_eq_applySign {a b : Word} (hb : b.toInt.natAbs ≠ 0) :
    divWords a b = applySign (a.toInt.natAbs * 2 ^ 64 / b.toInt.natAbs)
      (decide (a.toInt < 0) != decide (b.toInt < 0)) := by
  have ha_le := natAbs_toInt_le a
  have hb_le := natAbs_toInt_le b
  by_cases hover : a.toInt.natAbs / b.toInt.natAbs ≥ 2 ^ 64
  · have hbig : a.toInt.natAbs * 2 ^ 64 / b.toInt.natAbs > 2 ^ 127 := by
      calc 2 ^ 127 < 2 ^ 64 * 2 ^ 64 := by decide
        _ ≤ 2 ^ 64 * (a.toInt.natAbs / b.toInt.natAbs) := Nat.mul_le_mul_left _ hover
        _ ≤ 2 ^ 64 * a.toInt.natAbs / b.toInt.natAbs := Nat.mul_div_le_mul_div_assoc _ _ _
        _ = a.toInt.natAbs * 2 ^ 64 / b.toInt.natAbs := by rw [Nat.mul_comm]
    rw [divWords_of_error (udiv_overflow hb hover), applySign_error (.inl hbig)]
  · exact divWords_of_ok (udiv_eq_div (by omega) hb (by omega) (.inl hb_le) (Nat.not_le.1 hover))

end Sys2Proof.Machine

section
open Sys2Proof Sys2Proof.Machine

/-- Settles O44: by the zero word the core's first test faults; else the sign step decides, on the truncated quotient. -/
theorem divIsTruncatedSignedQuotient : Obligations.DivIsTruncatedSignedQuotient := by
  refine ⟨decodes_build .div, fun s a b hrun => ?_⟩
  dsimp only
  split
  next hzero =>
    subst hzero
    exact raises_of_perform (exec_div a 0 s) (divWords_of_error (udiv_zero _)) hrun
  next hzero =>
    have hne : b.toInt.natAbs ≠ 0 := fun h => hzero (BitVec.eq_of_toInt_eq (Int.natAbs_eq_zero.1 h))
    have hdiv := divWords_eq_applySign (a := a) hne
    split
    next hfault => exact raises_of_perform (exec_div a b s) (hdiv.trans (applySign_error hfault)) hrun
    next hfits =>
      obtain ⟨w, hw, hval⟩ := applySign_ok hfits
      exact ⟨w, completes_of_perform (exec_div a b s) (hdiv.trans hw) hrun, hval⟩

end

/-! Multiplying by a reciprocal (R60): the limb sum without its lowest product, and how far below the exact product it lies. -/

namespace Sys2Proof.Machine

theorem exec_umulinv (a b : Word) (s : State) :
    exec (.umulinv a b) s = perform s ((umulByInvert a.toNat b.toNat).map placeWord) := rfl

/-- The sum `UmulByInvert` forms from three of the four limb products (R60). -/
def invertSum (x y : Nat) : Nat :=
  hiLimb x * hiLimb y + (hiLimb x * loLimb y + loLimb x * hiLimb y) / 2 ^ 64

theorem umulByInvert_error {x y : Nat} (h : y > 2 ^ 127) : umulByInvert x y = .error .invalidDivisor := if_pos h

theorem umulByInvert_ok {x y : Nat} (h : ¬y > 2 ^ 127) : umulByInvert x y = .ok (invertSum x y) := if_neg h

/-- The exact floor, in limbs: it differs from `invertSum` only by the carry of the lowest limb product into the middle sum. -/
theorem mul_div_eq_high_add_carried_mid (x y : Nat) :
    x * y / 2 ^ 128 = hiLimb x * hiLimb y +
      (loLimb x * loLimb y / 2 ^ 64 + (hiLimb x * loLimb y + loLimb x * hiLimb y)) / 2 ^ 64 := by
  calc x * y / 2 ^ 128 = limbSum x y / 2 ^ 64 := by rw [limbSum_eq_mul_div, Nat.div_div_eq_div_mul, ← Nat.pow_add]
    _ = _ := by rw [limbSum, Nat.add_mul_div_right _ _ (by decide), Nat.add_comm]

/-- The carry of the lowest limb product into the middle sum is less than one unit of the result. -/
theorem loLimb_mul_loLimb_div_lt (x y : Nat) : loLimb x * loLimb y / 2 ^ 64 < 2 ^ 64 :=
  Nat.div_lt_of_lt_mul (Nat.mul_lt_mul'' (loLimb_lt x) (loLimb_lt y))

/-- The approximation is from below (R60). -/
theorem invertSum_le_mul_div (x y : Nat) : invertSum x y ≤ x * y / 2 ^ 128 := by
  rw [mul_div_eq_high_add_carried_mid, invertSum]
  exact Nat.add_le_add_left (Nat.div_le_div_right (Nat.le_add_left _ _)) _

/-- The approximation misses at most one unit (R60), since the carry it drops is less than one. -/
theorem mul_div_le_invertSum_add_one (x y : Nat) : x * y / 2 ^ 128 ≤ invertSum x y + 1 := by
  have hcarry := loLimb_mul_loLimb_div_lt x y
  rw [mul_div_eq_high_add_carried_mid, invertSum]
  omega

/-- By a reciprocal of at most `1/2` the product is at most half its operand's range (R60 (c)). -/
theorem invertSum_lt {x y : Nat} (hx : x < 2 ^ 128) (hy : y ≤ 2 ^ 127) : invertSum x y < 2 ^ 127 := by
  have hprod : x * y < 2 ^ 128 * 2 ^ 127 := Nat.mul_lt_mul_of_lt_of_le hx hy (by decide)
  exact (invertSum_le_mul_div x y).trans_lt (Nat.div_lt_of_lt_mul hprod)

theorem raises_umulinv {s : State} {a b : Word} (hrun : s.flt = 0) (h : b.toNat > 2 ^ 127) :
    Raises (.umulinv a b) s 2 :=
  raises_of_perform (exec_umulinv a b s) (congrArg (Except.map placeWord) (umulByInvert_error h)) hrun

theorem completes_umulinv {s : State} {a b : Word} (hrun : s.flt = 0) (h : ¬b.toNat > 2 ^ 127) :
    Completes (.umulinv a b) s (BitVec.ofNat 128 (invertSum a.toNat b.toNat)) :=
  completes_of_perform (exec_umulinv a b s) (congrArg (Except.map placeWord) (umulByInvert_ok h)) hrun

end Sys2Proof.Machine

section
open Sys2Proof Sys2Proof.Machine

/-- Settles O46: the delivered word is `invertSum`, unwrapped because it is below `2^127`, and at most one below the floor. -/
theorem umulinvApproximatesFromBelow : Obligations.UmulinvApproximatesFromBelow := by
  refine ⟨decodes_build .umulinv, fun s a b hrun => ?_⟩
  split
  next hfault => exact raises_umulinv hrun hfault
  next hfits =>
    have hlt : invertSum a.toNat b.toNat < 2 ^ 127 := invertSum_lt a.isLt (Nat.not_lt.1 hfits)
    have hval : (BitVec.ofNat 128 (invertSum a.toNat b.toNat)).toNat = invertSum a.toNat b.toNat :=
      (BitVec.toNat_ofNat _ _).trans (Nat.mod_eq_of_lt (hlt.trans (by decide)))
    refine ⟨_, completes_umulinv hrun hfits, ?_⟩
    rw [hval]
    exact ⟨rfl, invertSum_le_mul_div _ _, mul_div_le_invertSum_add_one _ _, hlt⟩

end

/-! The constructors from integers and from a limb pair (R70 to R79): each word is a high limb above a low one. -/

namespace Sys2Proof

/-- The operand slice the opcode map names (R31). -/
theorem lowBits_eq_extractLsb' {n : Nat} (h : n ≤ 128) (x : Word) : lowBits n x = x.extractLsb' 0 n :=
  BitVec.setWidth_eq_extractLsb' h

end Sys2Proof

namespace Sys2Proof.Machine

/-- A row of the map whose command reads one slice of bus `a` (R31, R33). -/
theorem decodes_slice {m : Mnemonic} {n : Nat} (f : BitVec n → Instr) (hn : n ≤ 128)
    (hm : ∀ a b, m.build a b = f (lowBits n a)) : Decodes m.opcode fun a _ => f (a.extractLsb' 0 n) := fun a b => by
  rw [decodes_build m a b, hm, lowBits_eq_extractLsb' hn]

theorem decodes_fromhilo :
    Decodes 0x09 fun a b => .fromhilo (a.extractLsb' 0 64) (b.extractLsb' 0 64) := fun a b => by
  have hslice (x : Word) : lowBits 64 x = x.extractLsb' 0 64 := lowBits_eq_extractLsb' (by decide) x
  exact (decodes_build .fromhilo a b).trans (by rw [Mnemonic.build, hslice, hslice])

/-! A word read limb by limb (R21). -/

theorem toInt_limbs (h l : Limb) : (h ++ l : Word).toInt = 2 ^ 64 * h.toInt + l.toNat := BitVec.toInt_append

theorem toNat_integer (h : Limb) : (h ++ 0#64 : Word).toNat = h.toNat * 2 ^ 64 := by
  rw [BitVec.toNat_append, BitVec.toNat_zero, Nat.or_zero, Nat.shiftLeft_eq]

/-- The value of a limb pair: the high limb is the signed integer part, the low one the fraction (R21, R79). -/
theorem val_limbs (h l : Limb) : Word.val (h ++ l) = (h.toInt : ℚ) + (l.toNat : ℚ) / 2 ^ 64 := by
  rw [Word.val, toInt_limbs]
  push_cast
  ring

theorem val_integer (h : Limb) : Word.val (h ++ 0#64) = (h.toInt : ℚ) := by
  rw [val_limbs, BitVec.toNat_zero, Nat.cast_zero, zero_div, add_zero]

/-- `FROMS*`'s word is the sign-extended operand above 64 zero bits (R71 to R74). -/
theorem fromSigned_eq_signExtend {k : Nat} (hk : k ≤ 64) (n : BitVec k) :
    fromSigned n = n.signExtend 64 ++ 0#64 := by
  have hval : (n.signExtend 64 ++ 0#64 : Word).toInt = n.toInt * 2 ^ 64 := by
    rw [BitVec.toInt_append_zero, BitVec.toInt_signExtend_of_le hk, mul_comm]
  rw [fromSigned, ← hval, BitVec.ofInt_toInt]

/-- `FROMU*`'s word is the zero-extended operand above 64 zero bits (R75 to R78). -/
theorem fromUnsigned_eq_setWidth {k : Nat} (hk : k ≤ 64) (n : BitVec k) :
    fromUnsigned n = n.setWidth 64 ++ 0#64 := by
  have hval : (n.setWidth 64 ++ 0#64 : Word).toNat = n.toNat * 2 ^ 64 := by
    rw [toNat_integer, BitVec.toNat_setWidth_of_le hk]
  rw [fromUnsigned, ← hval, BitVec.ofNat_toNat, BitVec.setWidth_eq]

/-- The value of `FROMS*`'s word (R71 to R74). -/
theorem val_signExtend {k : Nat} (hk : k ≤ 64) (n : BitVec k) :
    Word.val (n.signExtend 64 ++ 0#64) = (n.toInt : ℚ) := by
  rw [val_integer, BitVec.toInt_signExtend_of_le hk]

/-- The value of `FROMU*`'s word, for an operand too narrow to reach the sign bit (R75 to R77). -/
theorem val_setWidth {k : Nat} (hk : k < 64) (n : BitVec k) :
    Word.val (n.setWidth 64 ++ 0#64) = (n.toNat : ℚ) := by
  have hsign : (n.setWidth 64).msb = false := by
    rw [BitVec.msb_setWidth, BitVec.getLsbD_of_ge n 63 (by omega), Bool.and_false]
  rw [val_integer, BitVec.toInt_eq_toNat_of_msb hsign, BitVec.toNat_setWidth_of_le hk.le, Int.cast_natCast]

/-- What a signed constructor comes to, once its meaning is the one of R71 to R74. -/
theorem completes_fromSigned {k : Nat} {i : Instr} {s : State} (hk : k ≤ 64) (n : BitVec k)
    (hi : exec i s = perform s (.ok (fromSigned n))) (hrun : s.flt = 0) :
    Completes i s (n.signExtend 64 ++ 0#64) :=
  completes_of_perform hi (congrArg _ (fromSigned_eq_signExtend hk n)) hrun

/-- What an unsigned constructor comes to, once its meaning is the one of R75 to R78. -/
theorem completes_fromUnsigned {k : Nat} {i : Instr} {s : State} (hk : k ≤ 64) (n : BitVec k)
    (hi : exec i s = perform s (.ok (fromUnsigned n))) (hrun : s.flt = 0) :
    Completes i s (n.setWidth 64 ++ 0#64) :=
  completes_of_perform hi (congrArg _ (fromUnsigned_eq_setWidth hk n)) hrun

/-- A row of the signed integer constructors (R71 to R74): the slice read, the word delivered, its value. -/
theorem fromSigned_row {m : Mnemonic} {k : Nat} {s : State} (f : BitVec k → Instr) (hk : k ≤ 64)
    (hm : ∀ a b, m.build a b = f (lowBits k a)) (hi : ∀ n, exec (f n) s = perform s (.ok (fromSigned n)))
    (hrun : s.flt = 0) :
    (Decodes m.opcode fun a _ => f (a.extractLsb' 0 k)) ∧
      ∀ n, Completes (f n) s (n.signExtend 64 ++ 0#64) ∧ Word.val (n.signExtend 64 ++ 0#64) = n.toInt :=
  ⟨decodes_slice f (hk.trans (by decide)) hm, fun n =>
    ⟨completes_fromSigned hk n (hi n) hrun, val_signExtend hk n⟩⟩

/-- A row of the unsigned integer constructors whose values are exact (R75 to R77). -/
theorem fromUnsigned_row {m : Mnemonic} {k : Nat} {s : State} (f : BitVec k → Instr) (hk : k < 64)
    (hm : ∀ a b, m.build a b = f (lowBits k a)) (hi : ∀ n, exec (f n) s = perform s (.ok (fromUnsigned n)))
    (hrun : s.flt = 0) :
    (Decodes m.opcode fun a _ => f (a.extractLsb' 0 k)) ∧
      ∀ n, Completes (f n) s (n.setWidth 64 ++ 0#64) ∧ Word.val (n.setWidth 64 ++ 0#64) = n.toNat :=
  ⟨decodes_slice f (hk.le.trans (by decide)) hm, fun n =>
    ⟨completes_fromUnsigned hk.le n (hi n) hrun, val_setWidth hk n⟩⟩

theorem completes_zero {s : State} (hrun : s.flt = 0) : Completes .zero s 0 :=
  completes_of_perform rfl rfl hrun

theorem completes_froms64 {s : State} (hrun : s.flt = 0) (n : BitVec 64) : Completes (.froms64 n) s (n ++ 0#64) := by
  simpa only [BitVec.signExtend_eq] using completes_fromSigned (le_refl 64) n (i := .froms64 n) rfl hrun

theorem completes_fromu64 {s : State} (hrun : s.flt = 0) (n : BitVec 64) : Completes (.fromu64 n) s (n ++ 0#64) := by
  simpa only [BitVec.setWidth_eq] using completes_fromUnsigned (le_refl 64) n (i := .fromu64 n) rfl hrun

theorem completes_fromhilo {s : State} (hrun : s.flt = 0) (h l : Limb) : Completes (.fromhilo h l) s (h ++ l) :=
  completes_of_perform rfl rfl hrun

end Sys2Proof.Machine

section
open Sys2Proof Sys2Proof.Machine

/-- Settles O24, row by row: the slice read, the word delivered, its value. -/
theorem integerConstructorsAreExact : Obligations.IntegerConstructorsAreExact := by
  intro s hrun
  refine ⟨⟨decodes_build .zero, completes_zero hrun⟩, ?froms8, ?froms16, ?froms32, ?froms64, ?fromu8, ?fromu16, ?fromu32⟩
  case froms8 => exact fromSigned_row (m := .froms8) .froms8 (by decide) (fun _ _ => rfl) (fun _ => rfl) hrun
  case froms16 => exact fromSigned_row (m := .froms16) .froms16 (by decide) (fun _ _ => rfl) (fun _ => rfl) hrun
  case froms32 => exact fromSigned_row (m := .froms32) .froms32 (by decide) (fun _ _ => rfl) (fun _ => rfl) hrun
  case froms64 =>
    exact ⟨decodes_slice (m := .froms64) .froms64 (by decide) fun _ _ => rfl, fun n =>
      ⟨completes_froms64 hrun n, val_integer n⟩⟩
  case fromu8 => exact fromUnsigned_row (m := .fromu8) .fromu8 (by decide) (fun _ _ => rfl) (fun _ => rfl) hrun
  case fromu16 => exact fromUnsigned_row (m := .fromu16) .fromu16 (by decide) (fun _ _ => rfl) (fun _ => rfl) hrun
  case fromu32 => exact fromUnsigned_row (m := .fromu32) .fromu32 (by decide) (fun _ _ => rfl) (fun _ => rfl) hrun

/-- Settles O25: the word is that of `FROMS64`, so its value is the operand read signed. -/
theorem fromU64ReadsNegativeFromTwoPow63 : Obligations.FromU64ReadsNegativeFromTwoPow63 := by
  refine ⟨decodes_slice (m := .fromu64) .fromu64 (by decide) fun _ _ => rfl, fun s n hrun =>
    ⟨completes_fromu64 hrun n, completes_froms64 hrun n, ?_⟩⟩
  rw [val_integer, BitVec.toInt_eq_toNat_cond]
  split
  next hlow => rw [if_pos (by omega), Int.cast_natCast]
  next hhigh =>
    rw [if_neg (by omega)]
    push_cast
    rfl

/-- Settles O26: no bit of either limb is changed on the way into the word. -/
theorem fromHiLoComposesLimbs : Obligations.FromHiLoComposesLimbs :=
  ⟨decodes_fromhilo, fun _ h l hrun => ⟨completes_fromhilo hrun h l, val_limbs h l⟩⟩

end

/-! `FROMF64` (R80): its computation on whole units of `2^(-1074)` is the rule's on exact rationals. -/

namespace Sys2Proof.Machine

theorem exec_fromf64 (d : BitVec 64) (s : State) : exec (.fromf64 d) s = perform s (fromF64 d) := rfl

/-- A finite pattern's magnitude is its number of units over `2^1074`, whether it is subnormal or normal (R29). -/
theorem magnitude_eq_units_div (d : BitVec 64) : F64.magnitude d = (F64.units d : ℚ) / 2 ^ 1074 := by
  unfold F64.magnitude F64.units
  split
  next => rw [zpow_neg, div_eq_mul_inv, zpow_ofNat]
  next hnormal =>
    have hscale : (2 : ℚ) ^ ((F64.exponent d : ℤ) - 1075) = 2 ^ (F64.exponent d - 1) / 2 ^ 1074 := by
      rw [← zpow_natCast, ← zpow_natCast, ← zpow_sub₀ two_ne_zero]
      congr 1
      omega
    rw [hscale, Nat.cast_mul, Nat.cast_pow, Nat.cast_ofNat, mul_div_assoc]

/-- What the split leaves of `u / D` above its integer part is the remainder over `D`. -/
theorem div_sub_natDiv (u : ℕ) {D : ℕ} (hD : 0 < D) : (u : ℚ) / D - (u / D : ℕ) = (u % D : ℕ) / D := by
  have hsplit : (D : ℚ) * (u / D : ℕ) + (u % D : ℕ) = u := by exact_mod_cast Nat.div_add_mod u D
  field_simp
  linarith

/-- Scaling the fraction above `u / 2^k` by `2^64` and rounding it half up, done on the remainder (R80). -/
theorem floor_scaled_fraction (u : ℕ) {k j : ℕ} (hj : j = k + 1) :
    ⌊((u : ℚ) / (2 ^ k : ℕ) - (u / 2 ^ k : ℕ)) * 2 ^ 64 + 1 / 2⌋₊ = (u % 2 ^ k * 2 ^ 65 + 2 ^ k) / 2 ^ j := by
  subst hj
  have hscaled : ((u % 2 ^ k : ℕ) : ℚ) / (2 ^ k : ℕ) * 2 ^ 64 + 1 / 2 =
      ((u % 2 ^ k * 2 ^ 65 + 2 ^ k : ℕ) : ℚ) / (2 ^ (k + 1) : ℕ) := by
    push_cast
    field_simp
    ring
  rw [div_sub_natDiv u (by positivity), hscaled, Nat.floor_div_eq_div]

/-- R80's fraction limb `floor(flo * 2^64 + 1/2)` of a magnitude `x`. -/
def f64Fraction (x : ℚ) : ℕ := ⌊(x - ⌊x⌋₊) * 2 ^ 64 + 1 / 2⌋₊

/-- R80's word of a magnitude `x`: the integer part above the fraction limb, with the carry. -/
def f64Magnitude (x : ℚ) : ℕ :=
  if f64Fraction x = 2 ^ 64 then (⌊x⌋₊ + 1) * 2 ^ 64 else ⌊x⌋₊ * 2 ^ 64 + f64Fraction x

/-- The fraction limb is at most `2^64`, its value when the rounding carries (R80). -/
theorem f64Fraction_le (x : ℚ) : f64Fraction x ≤ 2 ^ 64 := by
  have hfrac : x - ⌊x⌋₊ < 1 := by linarith [Nat.lt_floor_add_one x]
  refine Nat.lt_succ_iff.1 ((Nat.floor_lt' (by decide)).2 ?_)
  push_cast
  linarith

/-- An accepted magnitude's word fits in 128 bits (R80). -/
theorem f64Magnitude_le {x : ℚ} (hx : x ≤ 2 ^ 63) : f64Magnitude x ≤ 2 ^ 128 := by
  have hlimb := f64Fraction_le x
  have hfloor : ⌊x⌋₊ ≤ 2 ^ 63 := Nat.floor_le_of_le (by exact_mod_cast hx)
  unfold f64Magnitude
  split <;> omega

/-- The model's word of a magnitude is the rule's (R80). -/
theorem f64Word_eq (u : ℕ) : f64Word u = f64Magnitude ((u : ℚ) / (2 ^ 1074 : ℕ)) := by
  have hfloor : ⌊(u : ℚ) / (2 ^ 1074 : ℕ)⌋₊ = u / 2 ^ 1074 := Nat.floor_div_eq_div _ _
  have hlimb : f64Fraction ((u : ℚ) / (2 ^ 1074 : ℕ)) = (u % 2 ^ 1074 * 2 ^ 65 + 2 ^ 1074) / 2 ^ 1075 := by
    rw [f64Fraction, hfloor]
    exact floor_scaled_fraction u rfl
  rw [f64Magnitude, hlimb, hfloor]
  rfl

/-- The rule's bounds on a magnitude, in the model's units (R80). -/
theorem units_gt_iff (d : BitVec 64) : F64.units d > 2 ^ 63 * 2 ^ 1074 ↔ F64.magnitude d > 2 ^ 63 := by
  rw [magnitude_eq_units_div, gt_iff_lt, gt_iff_lt, lt_div_iff₀ (by positivity), ← Nat.cast_lt (α := ℚ), Nat.cast_mul,
    Nat.cast_pow, Nat.cast_pow, Nat.cast_ofNat]

theorem units_eq_iff (d : BitVec 64) : F64.units d = 2 ^ 63 * 2 ^ 1074 ↔ F64.magnitude d = 2 ^ 63 := by
  rw [magnitude_eq_units_div, div_eq_iff (by positivity), ← Nat.cast_inj (R := ℚ), Nat.cast_mul, Nat.cast_pow,
    Nat.cast_pow, Nat.cast_ofNat]

theorem units_eq_zero_iff (d : BitVec 64) : F64.units d = 0 ↔ F64.magnitude d = 0 := by
  rw [magnitude_eq_units_div, div_eq_zero_iff, or_iff_left (by positivity), Nat.cast_eq_zero]

/-- What `FROMF64` refuses (R80). -/
def f64Refused (d : BitVec 64) : Prop :=
  F64.exponent d = 2047 ∨ F64.magnitude d > 2 ^ 63 ∨ (F64.magnitude d = 2 ^ 63 ∧ F64.sign d = false)

theorem fromF64_error {d : BitVec 64} (h : f64Refused d) : fromF64 d = .error .unrepresentableConversion := by
  rw [f64Refused, ← units_gt_iff, ← units_eq_iff] at h
  unfold fromF64
  by_cases hspecial : F64.exponent d = 2047
  · exact if_pos hspecial
  · refine (if_neg hspecial).trans ?_
    rcases h.resolve_left hspecial with hbig | hedge
    · exact if_pos hbig
    · exact (if_neg hedge.1.le.not_gt).trans (if_pos hedge)

theorem fromF64_ok {d : BitVec 64} (h : ¬f64Refused d) :
    fromF64 d = .ok (signedWord (f64Magnitude (F64.magnitude d)) (F64.sign d && decide (F64.magnitude d ≠ 0))) := by
  have hword : f64Word (F64.units d) = f64Magnitude (F64.magnitude d) := by
    rw [f64Word_eq, magnitude_eq_units_div, Nat.cast_pow, Nat.cast_ofNat]
  rw [f64Refused, ← units_gt_iff, ← units_eq_iff] at h
  obtain ⟨hfinite, hsmall, hedge⟩ := (not_or.1 h).imp_right not_or.1
  simp only [← hword, ne_eq, ← units_eq_zero_iff]
  unfold fromF64
  exact (if_neg hfinite).trans <| (if_neg hsmall).trans (if_neg hedge)

/-- The sign step on a magnitude's word, read as negation of bit vectors. -/
theorem signedWord_eq_neg {m : ℕ} (hm : m ≤ 2 ^ 128) (negative : Bool) :
    signedWord m negative = if negative then -BitVec.ofNat 128 m else BitVec.ofNat 128 m := by
  cases negative with
  | false => rfl
  | true =>
    apply BitVec.eq_of_toNat_eq
    simp only [signedWord, neg128, if_true, BitVec.toNat_neg, BitVec.toNat_ofNat]
    omega

end Sys2Proof.Machine

section
open Sys2Proof Sys2Proof.Machine

/-- Settles O27: on exact rationals the model refuses what the rule refuses, and else delivers the rule's word with the
rule's sign. -/
theorem fromF64SplitsScalesAndRounds : Obligations.FromF64SplitsScalesAndRounds := by
  refine ⟨decodes_slice (m := .fromf64) .fromf64 (by decide) fun _ _ => rfl, fun s d hrun => ?_⟩
  dsimp only
  split
  next hrefused => exact raises_of_perform (exec_fromf64 d s) (fromF64_error hrefused) hrun
  next haccepted =>
    have hbound : F64.magnitude d ≤ 2 ^ 63 := not_lt.1 fun hbig => haccepted (.inr (.inl hbig))
    have hword := signedWord_eq_neg (f64Magnitude_le hbound) (F64.sign d && decide (F64.magnitude d ≠ 0))
    simp only [Bool.and_eq_true, decide_eq_true_eq] at hword
    exact completes_of_perform (exec_fromf64 d s) ((fromF64_ok haccepted).trans (congrArg _ hword)) hrun

end

/-! The extracted limbs and integers (R90, R92, R93): a magnitude's high limb with the sign of the word. -/

namespace Sys2Proof.Machine

theorem exec_gethigh (a : Word) (s : State) : exec (.gethigh a) s = perform s (.ok (place64 (Word.hi a))) := rfl

theorem exec_getint (a : Word) (s : State) :
    exec (.getint a) s = perform s (.ok (place64 (signed64 (hiLimb (absWord a)) a.msb))) := rfl

theorem exec_round (a : Word) (s : State) :
    exec (.round a) s = perform s (.ok (place64 (signed64 (hiLimb (absWord a + 2 ^ 63)) a.msb))) := rfl

/-- A word is its two limbs (R21). -/
theorem hi_append_lo (a : Word) : (Word.hi a ++ Word.lo a : Word) = a := BitVec.extractLsb'_append_extractLsb'

/-- The high limb is the floor of the value: the low one adds a proper fraction (R90). -/
theorem floor_val (a : Word) : ⌊Word.val a⌋ = (Word.hi a).toInt := by
  have hlow : ((Word.lo a).toNat : ℚ) < 2 ^ 64 := by exact_mod_cast (Word.lo a).isLt
  have hval : Word.val a = (Word.hi a).toInt + ((Word.lo a).toNat : ℚ) / 2 ^ 64 := by
    rw [← val_limbs, hi_append_lo]
  rw [hval, Int.floor_intCast_add, add_eq_left, Int.floor_eq_zero_iff]
  exact ⟨by positivity, (div_lt_one (by positivity)).2 hlow⟩

/-- `Abs` reaches the end of its range on the negative side only (R40). -/
theorem absWord_lt_of_msb {a : Word} (h : a.msb = false) : absWord a < 2 ^ 127 := by
  have hlt : a.toInt < 2 ^ 127 := BitVec.toInt_lt
  have hnonneg : ¬a.toInt < 0 := by simpa [BitVec.msb_eq_toInt] using h
  rw [absWord_eq_natAbs]
  omega

/-- A signed 64-bit pattern holds every integer of its range (R92). -/
theorem signed64_true_toInt {h : ℕ} (hh : h ≤ 2 ^ 63) : (signed64 h true).toInt = -(h : ℤ) :=
  BitVec.toInt_ofInt_eq_self (by decide) (by omega) (by omega)

theorem signed64_false_toInt {h : ℕ} (hh : h < 2 ^ 63) : (signed64 h false).toInt = h := by
  rw [signed64, if_neg Bool.false_ne_true, ← BitVec.ofInt_natCast]
  exact BitVec.toInt_ofInt_eq_self (by decide) (by omega) (by omega)

/-- The one integer `ROUND` wraps (R93 (b)). -/
theorem signed64_wrap : (signed64 (2 ^ 63) false).toInt = -2 ^ 63 := by decide

/-- Truncation toward zero cuts the magnitude (R92). -/
theorem tdiv_eq_hiLimb_absWord (a : Word) :
    a.toInt.tdiv (2 ^ 64) = if a.msb then -(hiLimb (absWord a) : ℤ) else hiLimb (absWord a) := by
  rw [absWord_eq_natAbs, hiLimb, Int.natCast_ediv]
  cases hsign : a.msb with
  | false =>
    have hnonneg : 0 ≤ a.toInt := by simpa [BitVec.msb_eq_toInt] using hsign
    rw [Int.tdiv_eq_ediv_of_nonneg hnonneg, Int.natAbs_of_nonneg hnonneg]
    rfl
  | true =>
    have hneg : a.toInt ≤ 0 := ((msb_iff_toInt_neg a).1 hsign).le
    rw [Int.ofNat_natAbs_of_nonpos hneg, if_pos rfl, ← neg_neg a.toInt, Int.neg_tdiv,
      Int.tdiv_eq_ediv_of_nonneg (neg_nonneg.2 hneg), neg_neg]
    rfl

/-- A word's value is negative when its sign bit is set (R7). -/
theorem val_neg_iff (a : Word) : Word.val a < 0 ↔ a.msb = true := by
  rw [Word.val, div_lt_iff₀ (by positivity), zero_mul, Int.cast_lt_zero, msb_iff_toInt_neg]

/-- A word's value without its sign is `Abs` over `2^64` (R40). -/
theorem abs_val (a : Word) : |Word.val a| = (absWord a : ℚ) / 2 ^ 64 := by
  rw [Word.val, abs_div, absWord_eq_natAbs, Nat.cast_natAbs, Int.cast_abs, abs_of_pos (a := (2 : ℚ) ^ 64) (by positivity)]

/-- `ROUND`'s limb is the magnitude taken to the nearest integer, ties upward (R93). -/
theorem floor_abs_val_add_half (a : Word) : ⌊|Word.val a| + 1 / 2⌋ = (hiLimb (absWord a + 2 ^ 63) : ℤ) := by
  have hsum : |Word.val a| + 1 / 2 = ((absWord a + 2 ^ 63 : ℕ) : ℚ) / (2 ^ 64 : ℕ) := by
    rw [abs_val]
    push_cast
    ring
  rw [hsum, Rat.floor_natCast_div_natCast, hiLimb, Int.natCast_ediv]

/-- Where the rounded magnitude leaves the signed 64-bit range (R93 (a), (b)). -/
theorem half_below_two_pow_63_le_abs_val_iff (a : Word) :
    2 ^ 63 - 1 / 2 ≤ |Word.val a| ↔ hiLimb (absWord a + 2 ^ 63) = 2 ^ 63 := by
  have hscaled : (2 : ℚ) ^ 63 - 1 / 2 = ((2 ^ 127 - 2 ^ 63 : ℕ) : ℚ) / 2 ^ 64 := by norm_num
  have hle := absWord_le a
  rw [abs_val, hscaled, div_le_div_iff_of_pos_right (by positivity), Nat.cast_le, hiLimb]
  omega

theorem hiLimb_absWord_add_half_le (a : Word) : hiLimb (absWord a + 2 ^ 63) ≤ 2 ^ 63 := by
  have hle := absWord_le a
  unfold hiLimb
  omega

/-- The rounded magnitude fits with the sign put back, but for the one value `2^63` without a sign (R93 (a), (b)). -/
theorem rounded_toInt (a : Word) :
    (signed64 (hiLimb (absWord a + 2 ^ 63)) a.msb).toInt =
      if Word.val a < 0 then -⌊|Word.val a| + 1 / 2⌋
      else if Word.val a ≥ 2 ^ 63 - 1 / 2 then -2 ^ 63
      else ⌊Word.val a + 1 / 2⌋ := by
  have hle := hiLimb_absWord_add_half_le a
  have hwraps := half_below_two_pow_63_le_abs_val_iff a
  have hfloor := floor_abs_val_add_half a
  generalize hiLimb (absWord a + 2 ^ 63) = h at hle hwraps hfloor ⊢
  cases hsign : a.msb with
  | true =>
    rw [if_pos ((val_neg_iff a).2 hsign), hfloor]
    exact signed64_true_toInt hle
  | false =>
    have hnonneg : ¬Word.val a < 0 := by rw [val_neg_iff, hsign]; decide
    rw [if_neg hnonneg, ← abs_of_nonneg (not_lt.1 hnonneg), hfloor]
    split
    next hbig => rw [hwraps.1 hbig, signed64_wrap]
    next hsmall => exact signed64_false_toInt (lt_of_le_of_ne hle (mt hwraps.2 hsmall))

end Sys2Proof.Machine

section
open Sys2Proof Sys2Proof.Machine

/-- Settles O51: the limb placed is the one the rule names, and the floor of the value. -/
theorem getHighIsFloor : Obligations.GetHighIsFloor :=
  ⟨decodes_build .gethigh, fun s a hrun =>
    ⟨Word.hi a, completes_of_perform (exec_gethigh a s) rfl hrun, rfl, (floor_val a).symm⟩⟩

/-- Settles O53: the cut magnitude fits in 64 bits with the sign put back. -/
theorem getIntTruncatesTowardZero : Obligations.GetIntTruncatesTowardZero := by
  refine ⟨decodes_build .getint, fun s a hrun => ⟨_, completes_of_perform (exec_getint a s) rfl hrun, ?_⟩⟩
  rw [tdiv_eq_hiLimb_absWord]
  cases hsign : a.msb with
  | true => exact signed64_true_toInt (Nat.div_le_of_le_mul (absWord_le a))
  | false => exact signed64_false_toInt (Nat.div_lt_of_lt_mul (absWord_lt_of_msb hsign))

/-- Settles O54, by the integer the delivered pattern holds. -/
theorem roundTiesAwayFromZero : Obligations.RoundTiesAwayFromZero :=
  ⟨decodes_build .round, fun s a hrun =>
    ⟨_, completes_of_perform (exec_round a s) rfl hrun, rounded_toInt a⟩⟩

end

/-! `GETDOUBLE` (R94, R95). A pattern of the magnitude's binade or above it is a whole number of that binade's steps, one
below lies under the binade's first value; so the nearest of the binade's steps is the nearest of all patterns. -/

namespace Sys2Proof.Machine

theorem exec_getdouble (a : Word) (s : State) :
    exec (.getdouble a) s = perform s (.ok (place64 (if absWord a = 0 then 0 else rne64 a.msb (absWord a)))) := rfl

/-! The fields of a packed pattern (R29). -/

theorem toNat_pack (s : Bool) {e f : ℕ} (he : e < 2 ^ 11) (hf : f < 2 ^ 52) :
    (F64.pack s e f).toNat = (s.toNat * 2 ^ 11 + e) * 2 ^ 52 + f := by
  simp only [F64.pack, BitVec.toNat_append, BitVec.toNat_ofNat, BitVec.toNat_ofBool, Nat.mod_eq_of_lt he,
    Nat.mod_eq_of_lt hf]
  rw [← Nat.shiftLeft_add_eq_or_of_lt he, ← Nat.shiftLeft_add_eq_or_of_lt hf, Nat.shiftLeft_eq, Nat.shiftLeft_eq]

theorem sign_pack (s : Bool) {e f : ℕ} (he : e < 2 ^ 11) (hf : f < 2 ^ 52) : F64.sign (F64.pack s e f) = s := by
  rw [F64.sign, BitVec.msb_eq_decide, toNat_pack s he hf]
  cases s <;> simp <;> omega

theorem exponent_pack (s : Bool) {e f : ℕ} (he : e < 2 ^ 11) (hf : f < 2 ^ 52) : F64.exponent (F64.pack s e f) = e := by
  rw [F64.exponent, BitVec.extractLsb'_toNat, toNat_pack s he hf, Nat.shiftRight_eq_div_pow]
  omega

theorem fraction_pack (s : Bool) {e f : ℕ} (he : e < 2 ^ 11) (hf : f < 2 ^ 52) : F64.fraction (F64.pack s e f) = f := by
  rw [F64.fraction, BitVec.extractLsb'_toNat, toNat_pack s he hf, Nat.shiftRight_eq_div_pow]
  omega

/-! The rounding (R95). -/

/-- `m / 2^s` to the nearest natural, ties to even (R95's test, on the bits it drops). -/
def roundShift (m s : ℕ) : ℕ :=
  if m % 2 ^ s > 2 ^ (s - 1) ∨ (m % 2 ^ s = 2 ^ (s - 1) ∧ m / 2 ^ s % 2 = 1) then m / 2 ^ s + 1 else m / 2 ^ s

theorem rneSignificand_of_short {m : ℕ} (h : Nat.log2 m ≤ 52) :
    rneSignificand m = (m * 2 ^ (52 - Nat.log2 m), Nat.log2 m) := if_pos h

theorem rneSignificand_of_long {m : ℕ} (h : ¬Nat.log2 m ≤ 52) :
    rneSignificand m =
      if roundShift m (Nat.log2 m - 52) = 2 ^ 53 then (2 ^ 52, Nat.log2 m + 1)
      else (roundShift m (Nat.log2 m - 52), Nat.log2 m) := if_neg h

/-- The dropped bits are taken to the nearer end of their range, the even one from the middle. -/
theorem roundShift_spec (m : ℕ) {s : ℕ} (hs : 0 < s) :
    2 * |((roundShift m s * 2 ^ s : ℕ) : ℤ) - m| ≤ 2 ^ s ∧
      (2 * |((roundShift m s * 2 ^ s : ℕ) : ℤ) - m| = 2 ^ s → roundShift m s % 2 = 0) := by
  have hhalf : (2 : ℕ) ^ s = 2 * 2 ^ (s - 1) := by rw [← pow_succ', Nat.sub_add_cancel hs]
  have hlt : m % 2 ^ s < 2 ^ s := Nat.mod_lt _ (by positivity)
  have hsplit : ((m / 2 ^ s * 2 ^ s + m % 2 ^ s : ℕ) : ℤ) = m := congrArg _ (Nat.div_add_mod' m (2 ^ s))
  unfold roundShift
  split
  next hup =>
    have hdist : (((m / 2 ^ s + 1) * 2 ^ s : ℕ) : ℤ) - m = (2 ^ s - m % 2 ^ s : ℕ) := by
      rw [← hsplit, Nat.cast_sub hlt.le]
      push_cast
      ring
    rw [hdist, Nat.abs_cast]
    exact ⟨by norm_cast; omega, fun htie => by norm_cast at htie; omega⟩
  next hdown =>
    have hdist : ((m / 2 ^ s * 2 ^ s : ℕ) : ℤ) - m = -(m % 2 ^ s : ℕ) := by
      rw [← hsplit]
      push_cast
      ring
    rw [hdist, abs_neg, Nat.abs_cast]
    exact ⟨by norm_cast; omega, fun htie => by norm_cast at htie; omega⟩

/-- Rounding keeps within the binade, up to the first value of the next (R95). -/
theorem roundShift_bounds {m s : ℕ} (hlow : 2 ^ (52 + s) ≤ m) (hhigh : m < 2 ^ (53 + s)) :
    2 ^ 52 ≤ roundShift m s ∧ roundShift m s ≤ 2 ^ 53 := by
  have hq : 2 ^ 52 ≤ m / 2 ^ s := (Nat.le_div_iff_mul_le (by positivity)).2 (by rwa [← Nat.pow_add])
  have hq' : m / 2 ^ s < 2 ^ 53 := (Nat.div_lt_iff_lt_mul (by positivity)).2 (by rwa [← Nat.pow_add])
  unfold roundShift
  split <;> omega

/-- What R95 makes of a magnitude `m` whose top bit is the `k`-th: a 53-bit significand, read with its top bit's position as
the magnitude `p.1 * 2^p.2` in units `2^52` times finer than those of `m`. It is a whole number of the binade's steps, which
are `2^k` of these units, the nearest one, and even when it is one of two nearest. -/
structure NearestEven (m k : ℕ) (p : ℕ × ℕ) : Prop where
  low : 2 ^ 52 ≤ p.1
  high : p.1 < 2 ^ 53
  dvd : 2 ^ k ∣ p.1 * 2 ^ p.2
  near : 2 * |((p.1 * 2 ^ p.2 : ℕ) : ℤ) - (m * 2 ^ 52 : ℕ)| ≤ 2 ^ k
  even : 2 * |((p.1 * 2 ^ p.2 : ℕ) : ℤ) - (m * 2 ^ 52 : ℕ)| = 2 ^ k → p.1 % 2 = 0

/-! The lattice of finite patterns (R29). -/

/-- A pattern is below a binade or a whole number of its steps. -/
theorem units_lt_or_dvd (d : BitVec 64) (j : ℕ) : F64.units d < 2 ^ (52 + j) ∨ 2 ^ j ∣ F64.units d := by
  have hf : F64.fraction d < 2 ^ 52 := (d.extractLsb' 0 52).isLt
  refine or_iff_not_imp_left.2 fun hge => ?_
  rw [not_lt] at hge
  unfold F64.units at hge ⊢
  split
  next hsub =>
    rw [if_pos hsub] at hge
    have hfirst : 2 ^ 52 ≤ 2 ^ (52 + j) := Nat.pow_le_pow_right (by decide) (Nat.le_add_right _ _)
    exact absurd hf (hfirst.trans hge).not_gt
  next hnormal =>
    rw [if_neg hnormal] at hge
    have hlt : 2 ^ (52 + j) < 2 ^ (53 + (F64.exponent d - 1)) := by
      calc 2 ^ (52 + j) ≤ _ := hge
        _ < 2 ^ 53 * 2 ^ (F64.exponent d - 1) := Nat.mul_lt_mul_of_pos_right (by omega) (by positivity)
        _ = _ := (Nat.pow_add _ _ _).symm
    have hj := (Nat.pow_lt_pow_iff_right (by decide)).1 hlt
    exact Dvd.dvd.mul_left (Nat.pow_dvd_pow 2 (by omega)) _

/-- Among the multiples of a step `N`, none is nearer to `T` than one within half a step, and another is as near only at
exactly half a step. -/
theorem nearest_among_multiples {N D T u : ℤ} (hD : N ∣ D) (hu : N ∣ u) (hnear : 2 * |D - T| ≤ N) (hne : u ≠ D) :
    |D - T| ≤ |u - T| ∧ (|D - T| = |u - T| → 2 * |D - T| = N) := by
  have hstep : N ≤ |u - D| := 
    Int.le_of_dvd (abs_pos.2 (sub_ne_zero.2 hne)) ((dvd_abs _ _).2 (dvd_sub hu hD))
  have htri : |u - D| ≤ |u - T| + |D - T| := by simpa [abs_sub_comm T D] using abs_sub_le u T D
  exact ⟨by omega, by omega⟩

/-- The same with values `u` below the binade, whose first value `L` is a multiple of the step. -/
theorem nearest_of_lattice {N L D T u : ℤ} (hD : N ∣ D) (hL : N ∣ L) (hLT : L ≤ T) (hnear : 2 * |D - T| ≤ N)
    (hu : u < L ∨ N ∣ u) (hne : u ≠ D) : |D - T| ≤ |u - T| ∧ (|D - T| = |u - T| → 2 * |D - T| = N) := by
  rcases hu with hbelow | hmul
  · have hfirst : |D - T| ≤ |L - T| := by
      rcases eq_or_ne L D with rfl | hLD
      · exact le_rfl
      · exact (nearest_among_multiples hD hL hnear hLD).1
    have hfarther : |L - T| < |u - T| := by
      rw [abs_of_nonpos (by omega), abs_of_neg (by omega)]
      omega
    exact ⟨by omega, by omega⟩
  · exact nearest_among_multiples hD hmul hnear hne

/-! Values along a sign. -/

/-- The units of `2^(-1074)` of a finite pattern, counted in the direction of the sign `negative`. -/
def unitsAlong (negative : Bool) (d : BitVec 64) : ℤ :=
  if F64.sign d = negative then F64.units d else -F64.units d

/-- The sign as a factor. -/
def signFactor (negative : Bool) : ℚ := if negative then -1 else 1

theorem abs_signFactor (negative : Bool) : |signFactor negative| = 1 := by cases negative <;> simp [signFactor]

/-- A finite pattern's value (R29), along either sign. -/
theorem value_eq_unitsAlong (negative : Bool) (d : BitVec 64) :
    F64.value d = signFactor negative * (unitsAlong negative d / 2 ^ 1074) := by
  rw [F64.value, magnitude_eq_units_div, unitsAlong]
  cases F64.sign d <;> cases negative <;> simp [signFactor, neg_div]

/-- A word's value (R21), along its own sign. -/
theorem val_eq_absWord (a : Word) :
    Word.val a = signFactor a.msb * (((absWord a * 2 ^ 1010 : ℕ) : ℚ) / 2 ^ 1074) := by
  have hscaled : ((absWord a * 2 ^ 1010 : ℕ) : ℚ) / 2 ^ 1074 = |Word.val a| := by
    rw [abs_val, Nat.cast_mul, Nat.cast_pow, Nat.cast_ofNat,
      div_eq_div_iff (by positivity) (by positivity), mul_assoc, ← pow_add]
  have hneg := val_neg_iff a
  rw [hscaled]
  cases hsign : a.msb with
  | true => rw [abs_of_neg (hneg.2 hsign), signFactor, if_pos rfl, neg_one_mul, neg_neg]
  | false =>
    rw [abs_of_nonneg (not_lt.1 fun h => Bool.false_ne_true (hsign.symm.trans (hneg.1 h))), signFactor,
      if_neg Bool.false_ne_true, one_mul]

/-- A pattern lies below the binade, on the side of the sign, or is a whole number of its steps. -/
theorem unitsAlong_lt_or_dvd (negative : Bool) (d : BitVec 64) (j : ℕ) :
    unitsAlong negative d < 2 ^ (52 + j) ∨ 2 ^ j ∣ unitsAlong negative d := by
  unfold unitsAlong
  split
  next => exact_mod_cast units_lt_or_dvd d j
  next =>
    have hpos : (0 : ℤ) < 2 ^ (52 + j) := by positivity
    exact .inl (by omega)

/-- A pattern's distance from a word's value (R21, R29), in the patterns' units. -/
theorem abs_value_sub_val (a : Word) (d : BitVec 64) :
    |F64.value d - Word.val a| = (|unitsAlong a.msb d - (absWord a * 2 ^ 1010 : ℕ)| : ℤ) / 2 ^ 1074 := by
  rw [value_eq_unitsAlong a.msb, val_eq_absWord, ← mul_sub, abs_mul, abs_signFactor, one_mul, ← sub_div, abs_div,
    abs_of_pos (a := (2 : ℚ) ^ 1074) (by positivity), Int.cast_abs, Int.cast_sub, Int.cast_natCast]

/-- A magnitude of at most 53 bits is its own significand (R95). -/
theorem nearestEven_of_short {m : ℕ} (hm : m ≠ 0) (hshort : Nat.log2 m ≤ 52) :
    NearestEven m (Nat.log2 m) (m * 2 ^ (52 - Nat.log2 m), Nat.log2 m) := by
  have hlow : 2 ^ Nat.log2 m ≤ m := Nat.log2_self_le hm
  have hhigh : m < 2 ^ (Nat.log2 m + 1) := Nat.lt_log2_self
  generalize Nat.log2 m = k at *
  have hexact : m * 2 ^ (52 - k) * 2 ^ k = m * 2 ^ 52 := by rw [mul_assoc, ← pow_add, Nat.sub_add_cancel hshort]
  have hpos : (2 : ℤ) ^ k > 0 := by positivity
  refine ⟨?low, ?high, Dvd.intro_left _ rfl, ?near, ?even⟩ <;> dsimp only
  case low =>
    calc 2 ^ 52 = 2 ^ k * 2 ^ (52 - k) := by rw [← pow_add, Nat.add_sub_cancel' hshort]
      _ ≤ _ := Nat.mul_le_mul_right _ hlow
  case high =>
    calc m * 2 ^ (52 - k) < 2 ^ (k + 1) * 2 ^ (52 - k) := Nat.mul_lt_mul_of_pos_right hhigh (by positivity)
      _ = 2 ^ 53 := by rw [← pow_add, Nat.add_right_comm, Nat.add_sub_cancel' hshort]
  case near => rw [hexact, sub_self, abs_zero, mul_zero]; exact hpos.le
  case even => rw [hexact, sub_self, abs_zero, mul_zero]; exact fun h => absurd h hpos.ne

/-- A longer magnitude loses its low `s` bits to the rounding, and the carry only renames the significand (R95). -/
theorem nearestEven_of_long {m s : ℕ} (hs : 0 < s) (hlow : 2 ^ (52 + s) ≤ m) (hhigh : m < 2 ^ (53 + s)) :
    NearestEven m (52 + s)
      (if roundShift m s = 2 ^ 53 then (2 ^ 52, 52 + s + 1) else (roundShift m s, 52 + s)) := by
  obtain ⟨hnear, heven⟩ := roundShift_spec m hs
  obtain ⟨hqlow, hqhigh⟩ := roundShift_bounds hlow hhigh
  generalize roundShift m s = q at *
  have hscaled : 2 * |((q * 2 ^ (52 + s) : ℕ) : ℤ) - (m * 2 ^ 52 : ℕ)| =
      2 ^ 52 * (2 * |((q * 2 ^ s : ℕ) : ℤ) - m|) := by
    have hdiff : ((q * 2 ^ (52 + s) : ℕ) : ℤ) - (m * 2 ^ 52 : ℕ) = 2 ^ 52 * (((q * 2 ^ s : ℕ) : ℤ) - m) := by
      push_cast
      ring
    rw [hdiff, abs_mul, abs_of_pos (a := (2 : ℤ) ^ 52) (by decide), mul_left_comm]
  have hnear' : 2 * |((q * 2 ^ (52 + s) : ℕ) : ℤ) - (m * 2 ^ 52 : ℕ)| ≤ 2 ^ (52 + s) := by
    rw [hscaled, pow_add]
    exact mul_le_mul_of_nonneg_left hnear (by decide)
  have heven' (h : 2 * |((q * 2 ^ (52 + s) : ℕ) : ℤ) - (m * 2 ^ 52 : ℕ)| = 2 ^ (52 + s)) : q % 2 = 0 := by
    rw [hscaled, pow_add] at h
    exact heven (mul_left_cancel₀ (by decide) h)
  split
  next hcarry =>
    have hrename : 2 ^ 52 * 2 ^ (52 + s + 1) = q * 2 ^ (52 + s) := by
      rw [hcarry]
      ring
    refine ⟨?low, ?high, ?dvd, ?near, ?even⟩ <;> dsimp only
    case low => exact le_rfl
    case high => decide
    case dvd => exact hrename ▸ Dvd.intro_left _ rfl
    case near => rwa [hrename]
    case even => exact fun _ => rfl
  next hfits => exact ⟨hqlow, lt_of_le_of_ne hqhigh hfits, Dvd.intro_left _ rfl, hnear', heven'⟩

/-- R95's significand is the nearest, ties to even, whether or not bits are dropped. -/
theorem rneSignificand_nearestEven {m : ℕ} (hm : m ≠ 0) : NearestEven m (Nat.log2 m) (rneSignificand m) := by
  by_cases hshort : Nat.log2 m ≤ 52
  · rw [rneSignificand_of_short hshort]
    exact nearestEven_of_short hm hshort
  · have hsplit : Nat.log2 m = 52 + (Nat.log2 m - 52) := (Nat.add_sub_cancel' (not_le.1 hshort).le).symm
    have hlow : 2 ^ Nat.log2 m ≤ m := Nat.log2_self_le hm
    have hhigh : m < 2 ^ (Nat.log2 m + 1) := Nat.lt_log2_self
    have hlong := nearestEven_of_long (m := m) (s := Nat.log2 m - 52) (by omega) (by rwa [← hsplit])
      (hhigh.trans_eq (congrArg _ (by omega)))
    rw [rneSignificand_of_long hshort]
    rwa [← hsplit] at hlong

/-- The rounding does not pass `2^127`, the end of `Abs`'s range (R94 (b)). -/
theorem NearestEven.exponent_le {m k : ℕ} {p : ℕ × ℕ} (h : NearestEven m k p) (hm : m ≤ 2 ^ 127)
    (hk : 2 ^ k ≤ m) : p.2 ≤ 127 := by
  have hnear := (abs_le.1 ((le_mul_of_one_le_left (abs_nonneg _) (by decide)).trans h.near)).2
  have hmag : p.1 * 2 ^ p.2 ≤ m * 2 ^ 52 + 2 ^ k := by
    zify
    push_cast at hnear
    linarith
  have hpow : 2 ^ (52 + p.2) < 2 ^ (52 + 128) := by
    calc 2 ^ (52 + p.2) = 2 ^ 52 * 2 ^ p.2 := pow_add _ _ _
      _ ≤ p.1 * 2 ^ p.2 := Nat.mul_le_mul_right _ h.low
      _ ≤ m * 2 ^ 52 + 2 ^ k := hmag
      _ ≤ 2 ^ 127 * 2 ^ 52 + 2 ^ 127 := Nat.add_le_add (Nat.mul_le_mul_right _ hm) (hk.trans hm)
      _ < 2 ^ (52 + 128) := by decide
  have := (Nat.pow_lt_pow_iff_right (by decide)).1 hpow
  omega

/-! The delivered pattern. -/

/-- The pattern of a significand and its top bit's position (R95), field by field, and its magnitude. -/
theorem pack_fields (s : Bool) {q k : ℕ} (hlow : 2 ^ 52 ≤ q) (hhigh : q < 2 ^ 53) (hk : k ≤ 127) :
    F64.sign (F64.pack s (k + 959) (q - 2 ^ 52)) = s ∧ F64.exponent (F64.pack s (k + 959) (q - 2 ^ 52)) = k + 959 ∧
      F64.fraction (F64.pack s (k + 959) (q - 2 ^ 52)) = q - 2 ^ 52 ∧
      F64.units (F64.pack s (k + 959) (q - 2 ^ 52)) = q * 2 ^ k * 2 ^ 958 := by
  have he : k + 959 < 2 ^ 11 := by omega
  have hf : q - 2 ^ 52 < 2 ^ 52 := by omega
  refine ⟨sign_pack s he hf, exponent_pack s he hf, fraction_pack s he hf, ?_⟩
  rw [F64.units, exponent_pack s he hf, fraction_pack s he hf, if_neg (Nat.succ_ne_zero _), Nat.add_sub_cancel' hlow,
    Nat.add_sub_assoc (by decide), pow_add, mul_assoc]

/-- A distance in units of `2^(-116)`, in which significands are whole, read in patterns' units of `2^(-1074)`. -/
theorem abs_sub_in_pattern_units (x m : ℕ) :
    |((x * 2 ^ 958 : ℕ) : ℤ) - (m * 2 ^ 1010 : ℕ)| = |(x : ℤ) - (m * 2 ^ 52 : ℕ)| * 2 ^ 958 := by
  have hunits : m * 2 ^ 1010 = m * 2 ^ 52 * 2 ^ 958 := by rw [mul_assoc, ← pow_add]
  rw [hunits, Nat.cast_mul x, Nat.cast_mul (m * 2 ^ 52), ← sub_mul, abs_mul, Nat.abs_cast, Nat.cast_pow, Nat.cast_ofNat]

/-- R95's promise on the significand, in patterns' units. -/
theorem NearestEven.in_pattern_units {m k : ℕ} {p : ℕ × ℕ} (h : NearestEven m k p) {D : ℤ}
    (hD : D = (p.1 * 2 ^ p.2 * 2 ^ 958 : ℕ)) :
    2 ^ (k + 958) ∣ D ∧ 2 * |D - (m * 2 ^ 1010 : ℕ)| ≤ 2 ^ (k + 958) ∧
      (2 * |D - (m * 2 ^ 1010 : ℕ)| = 2 ^ (k + 958) → p.1 % 2 = 0) := by
  rw [hD, abs_sub_in_pattern_units, pow_add, ← mul_assoc]
  refine ⟨?dvd, ?near, fun htie => h.even ?tie⟩
  case dvd => exact_mod_cast Nat.mul_dvd_mul_right h.dvd (2 ^ 958)
  case near => exact mul_le_mul_of_nonneg_right h.near (by positivity)
  case tie => exact mul_right_cancel₀ (by positivity) htie

/-- No finite pattern is nearer to a word's value than one with R95's significand and the word's sign, and only an even one
has a rival. -/
theorem NearestEven.value_nearest {a : Word} {k : ℕ} {p : ℕ × ℕ} {d : BitVec 64} (h : NearestEven (absWord a) k p)
    (hk : 2 ^ k ≤ absWord a) (hsign : F64.sign d = a.msb) (hunits : F64.units d = p.1 * 2 ^ p.2 * 2 ^ 958)
    (e : BitVec 64) :
    |F64.value d - Word.val a| ≤ |F64.value e - Word.val a| ∧
      (|F64.value d - Word.val a| = |F64.value e - Word.val a| → F64.value e ≠ F64.value d → p.1 % 2 = 0) := by
  rcases eq_or_ne (unitsAlong a.msb e) (unitsAlong a.msb d) with hsame | hother
  · have hvalue : F64.value e = F64.value d := by
      rw [value_eq_unitsAlong a.msb e, hsame, ← value_eq_unitsAlong]
    exact ⟨(congrArg (|· - Word.val a|) hvalue).ge, fun _ hne => absurd hvalue hne⟩
  · have halong : unitsAlong a.msb d = (p.1 * 2 ^ p.2 * 2 ^ 958 : ℕ) := by rw [unitsAlong, if_pos hsign, hunits]
    obtain ⟨hstep, hnear, heven⟩ := h.in_pattern_units halong
    have hfirst : (2 : ℤ) ^ (52 + (k + 958)) ≤ (absWord a * 2 ^ 1010 : ℕ) := by
      rw [Nat.add_left_comm, pow_add, Nat.cast_mul, Nat.cast_pow _ 1010, Nat.cast_ofNat]
      exact mul_le_mul_of_nonneg_right (by exact_mod_cast hk) (by positivity)
    obtain ⟨hle, htie⟩ := nearest_of_lattice hstep (pow_dvd_pow 2 (Nat.le_add_left _ 52)) hfirst hnear
      (unitsAlong_lt_or_dvd a.msb e (k + 958)) hother
    rw [abs_value_sub_val, abs_value_sub_val, div_le_div_iff_of_pos_right (by positivity), Int.cast_le,
      div_left_inj' (by positivity), Int.cast_inj]
    exact ⟨hle, fun heq _ => heven (htie heq)⟩

end Sys2Proof.Machine

section
open Sys2Proof Sys2Proof.Machine

/-- Settles O56: the zero word aside, the pattern packs the rounded significand, and no pattern off the binade's steps comes
nearer. -/
theorem getDoubleIsNearestTiesToEven : Obligations.GetDoubleIsNearestTiesToEven := by
  refine ⟨decodes_build .getdouble, fun s a hrun => ?_⟩
  split
  next hzero =>
    subst hzero
    exact completes_of_perform (exec_getdouble 0 s) rfl hrun
  next hne =>
    have hmag : absWord a ≠ 0 := by
      rw [absWord_eq_natAbs]
      exact fun h => hne (BitVec.eq_of_toInt_eq (Int.natAbs_eq_zero.1 h))
    have hlow : 2 ^ Nat.log2 (absWord a) ≤ absWord a := Nat.log2_self_le hmag
    have hround := rneSignificand_nearestEven hmag
    have hexp := hround.exponent_le (absWord_le a) hlow
    obtain ⟨hsign, hexponent, hfraction, hunits⟩ := pack_fields a.msb hround.low hround.high hexp
    refine ⟨rne64 a.msb (absWord a), ?_, hsign.trans BitVec.msb_eq_toInt, ?_, ?_, fun e _ => ?_⟩
    · exact completes_of_perform (exec_getdouble a s) (by rw [if_neg hmag]; rfl) hrun
    · exact (Nat.le_add_left _ _).trans_eq hexponent.symm
    · exact hexponent.trans_le (Nat.add_le_add_right hexp 959)
    · obtain ⟨hnear, heven⟩ := hround.value_nearest hlow hsign hunits e
      refine ⟨hnear, fun htie hother => ?_⟩
      have hq := heven htie hother
      have hqlow := hround.low
      exact (congrArg (· % 2) hfraction).trans (by omega)

end

/-! The facade operators (R100 to R107): the wrapped primitives are the bit-vector operations, and each command delivers one
word in a running unit. -/

namespace Sys2Proof.Machine

theorem placeWord_add128 (a b : Word) : placeWord (add128 a.toNat b.toNat) = a + b :=
  BitVec.eq_of_toNat_eq (by simp [placeWord, add128])

theorem placeWord_sub128 (a b : Word) : placeWord (sub128 a.toNat b.toNat) = a - b := by
  refine BitVec.eq_of_toNat_eq ?_
  rw [placeWord, BitVec.toNat_ofNat, Nat.mod_eq_of_lt (sub128_lt _ _), sub128, Nat.mod_eq_of_lt b.isLt, Nat.add_comm,
    BitVec.toNat_sub]

theorem placeWord_neg128 (a : Word) : placeWord (neg128 a.toNat) = -a :=
  BitVec.eq_of_toNat_eq (by simp [placeWord, neg128])

theorem placeBool_decide (p : Prop) [Decidable p] : placeBool (decide p) = if p then 1 else 0 := by
  by_cases hp : p <;> simp [placeBool, hp]

/-- No wrap happens (R100): a sum in the signed range is its own signed residue. -/
theorem toInt_add_of_fits {a b : Word} (hlow : -2 ^ 127 ≤ a.toInt + b.toInt) (hhigh : a.toInt + b.toInt < 2 ^ 127) :
    (a + b).toInt = a.toInt + b.toInt := by
  rw [BitVec.toInt_add]
  exact Int.bmod_eq_of_le hlow hhigh

theorem toInt_sub_of_fits {a b : Word} (hlow : -2 ^ 127 ≤ a.toInt - b.toInt) (hhigh : a.toInt - b.toInt < 2 ^ 127) :
    (a - b).toInt = a.toInt - b.toInt := by
  rw [BitVec.toInt_sub]
  exact Int.bmod_eq_of_le hlow hhigh

/-- The unsigned word of a difference is its residue: the one `sub128` reaches by adding `2^128` first (R8, R101). -/
theorem toNat_sub_eq_emod (a b : Word) : ((a - b).toNat : Int) = ((a.toNat : Int) - b.toNat) % 2 ^ 128 := by
  rw [BitVec.toNat_sub]
  have hb : b.toNat < 2 ^ 128 := b.isLt
  omega

/-- Negation is the difference from 0 (R102). -/
theorem toNat_neg_eq_emod (a : Word) : ((-a).toNat : Int) = (-(a.toNat : Int)) % 2 ^ 128 := by
  simpa using toNat_sub_eq_emod 0 a

theorem toInt_eq_neg_two_pow_127_iff (a : Word) : a.toInt = -2 ^ 127 ↔ a = Word.min := by
  rw [← BitVec.toInt_inj]
  rfl

theorem toInt_neg_of_ne {a : Word} (h : a.toInt ≠ -2 ^ 127) : (-a).toInt = -a.toInt :=
  BitVec.toInt_neg_of_ne_intMin (mt (toInt_eq_neg_two_pow_127_iff a).2 h)

theorem neg_eq_self_of_eq {a : Word} (h : a.toInt = -2 ^ 127) : -a = a := by
  rw [(toInt_eq_neg_two_pow_127_iff a).1 h]
  decide

section
variable {s : State} (hrun : s.flt = 0) (a b : Word)
include hrun

theorem completes_add : Completes (.add a b) s (a + b) :=
  completes_of_perform rfl (congrArg Except.ok (placeWord_add128 a b)) hrun

theorem completes_sub : Completes (.sub a b) s (a - b) :=
  completes_of_perform rfl (congrArg Except.ok (placeWord_sub128 a b)) hrun

theorem completes_neg : Completes (.neg a) s (-a) :=
  completes_of_perform rfl (congrArg Except.ok (placeWord_neg128 a)) hrun

theorem completes_pos : Completes (.pos a) s a := completes_of_perform rfl rfl hrun

/-- The model compares signed values (R104); words with the same one are the same word. -/
theorem completes_eq : Completes (.eq a b) s (if a = b then 1 else 0) := by
  simp only [← BitVec.toInt_inj (x := a)]
  exact completes_of_perform rfl (congrArg Except.ok (placeBool_decide _)) hrun

theorem completes_lt : Completes (.lt a b) s (if a.toInt < b.toInt then 1 else 0) :=
  completes_of_perform rfl (congrArg Except.ok (placeBool_decide _)) hrun

theorem completes_gt : Completes (.gt a b) s (if b.toInt < a.toInt then 1 else 0) :=
  completes_of_perform rfl (congrArg Except.ok (placeBool_decide _)) hrun

theorem completes_tobool : Completes (.tobool a) s (if a.toNat = 0 then 0 else 1) := by
  rw [← ite_not]
  exact completes_of_perform rfl (congrArg Except.ok (placeBool_decide _)) hrun

end

end Sys2Proof.Machine

section
open Sys2Proof Sys2Proof.Machine

/-- Settles O30: the delivered words are the bit-vector sum and difference, exact where the signed range holds them. -/
theorem addSubWrapSilently : Obligations.AddSubWrapSilently :=
  ⟨decodes_build .add, decodes_build .sub, fun _ a b hrun =>
    ⟨⟨a + b, completes_add hrun a b, BitVec.toNat_add a b, toInt_add_of_fits⟩,
      ⟨a - b, completes_sub hrun a b, toNat_sub_eq_emod a b, toInt_sub_of_fits⟩⟩⟩

/-- Settles O31: the delivered word is the bit-vector negation, an involution whose one exception to exactness is `MIN`. -/
theorem negAndPosAreUnchecked : Obligations.NegAndPosAreUnchecked := by
  refine ⟨decodes_build .neg, decodes_build .pos, fun s a hrun => ⟨⟨-a, completes_neg hrun a, ?_⟩, completes_pos hrun a⟩⟩
  have hback : Completes (.neg (-a)) s a := by simpa only [BitVec.neg_neg] using completes_neg hrun (-a)
  exact ⟨toNat_neg_eq_emod a, toInt_neg_of_ne, neg_eq_self_of_eq, hback⟩

/-- Settles O32, one command at a time; `EQ` with the zero word is read off its unsigned value. -/
theorem comparisonsAreSignedAndTotal : Obligations.ComparisonsAreSignedAndTotal := by
  refine ⟨decodes_build .eq, decodes_build .lt, decodes_build .gt, decodes_build .tobool, fun s a b hrun => ?_⟩
  have hzero : Completes (.eq a 0) s (if a.toNat = 0 then 1 else 0) := by
    have hiff : a = 0 ↔ a.toNat = 0 := BitVec.toNat_inj.symm
    simpa only [hiff] using completes_eq hrun a 0
  exact ⟨completes_eq hrun a b, BitVec.toInt_inj.symm, completes_lt hrun a b, completes_gt hrun a b,
    completes_tobool hrun a, hzero⟩

end

/-! Reset and the halted answer (R117, R118): the handshake under `rst`, and the whole next state of either step. -/

namespace Sys2Proof.Machine

theorem rst_of_host {s : State} {d : Drive} {rest : List Drive} (h : s.host = d :: rest) : s.rst = d.rst :=
  congrArg Drive.rst (drive_of_host h)

/-- Between two steps no command is outstanding, so only `rst` lowers `cmd_ready` (R18). -/
theorem cmdReady_eq_false_iff (s : State) : s.cmdReady = false ↔ s.rst = true := by simp [State.cmdReady]

theorem cmdReady_eq_true_iff (s : State) : s.cmdReady = true ↔ s.rst = false := by simp [State.cmdReady]

theorem accepted_eq_none_of_rst {s : State} (h : s.rst = true) : s.accepted = none :=
  Option.eq_none_iff_forall_ne_some.2 fun _ ha => Bool.false_ne_true ((rst_eq_false_of_accepted ha).symm.trans h)

/-- Reset on the state the host has moved on from: of the old state nothing is left but the later drives (R130). -/
theorem advance_applyReset_of_host {s : State} {d : Drive} {rest : List Drive} (h : s.host = d :: rest) :
    s.advance.applyReset = { State.reset with host := rest } := by
  simp [State.applyReset, State.reset, h]

/-- The halted answer on the state the host has moved on from, all fields written out (R117). -/
theorem advance_answerHalted_of_host {s : State} {d : Drive} {rest : List Drive} (h : s.host = d :: rest) :
    s.advance.answerHalted = { s with host := rest, rsp := some (.fault s.flt) } := by
  simp [State.answerHalted, h]

/-- Of the two writers of `FLT` only `rst` acts on a halted unit (R118). -/
theorem rst_eq_true_of_flt_cleared {s t : State} (h : step s = .next t) (hs : s.flt ≠ 0) (ht : t.flt = 0) :
    s.rst = true := by
  have hne : t.flt ≠ s.flt := fun heq => hs (heq.symm.trans ht)
  rcases writer_of_flt_ne h hne with ⟨hr, -⟩ | ⟨-, hrun, -⟩
  · exact hr
  · exact absurd hrun hs

end Sys2Proof.Machine

section
open Sys2Proof Sys2Proof.Machine

/-- Settles O9: with `rst` low the command is accepted, and the halted step does not look at it. -/
theorem haltedUnitAnswersLatchedCode : Obligations.HaltedUnitAnswersLatchedCode := by
  intro s c rest hhalt hhost
  have hacc : s.accepted = some c := accepted_of_host hhost
  refine ⟨(cmdReady_eq_true_iff s).2 (rst_of_host hhost), hacc, ?_⟩
  rw [step_halted hacc hhalt, advance_answerHalted_of_host hhost]

/-- Settles O2: `rst` comes before everything else in a step, and no other writer of `FLT` acts on a halted unit. -/
theorem resetIsTheOnlyExitFromHalt : Obligations.ResetIsTheOnlyExitFromHalt := by
  refine ⟨fun s c rest hhost => ?_, fun _ _ => rst_eq_true_of_flt_cleared⟩
  have hrst : s.rst = true := rst_of_host hhost
  refine ⟨(cmdReady_eq_false_iff s).2 hrst, accepted_eq_none_of_rst hrst, ?_⟩
  rw [step_reset hrst, advance_applyReset_of_host hhost]

end

/-! Runs (R132): each step answers, the host is read once a step, and the response port is never read back. Everything here
goes through the five things one step can do. -/

namespace Sys2Proof.Machine

theorem exists_next_state (s : State) : ∃ t, step s = .next t := by
  rcases step_cases s with ⟨-, h⟩ | ⟨-, -, h⟩ | ⟨_, -, -, h⟩ | ⟨_, _, -, -, h⟩ | ⟨_, _, -, -, h⟩ <;> exact ⟨_, h⟩

/-- A run goes on from the next state. -/
theorem run_succ_of_step {s t : State} (n : Nat) (h : step s = .next t) : core.run (n + 1) s = core.run n t := by
  have hcore : core.step s = .next t := h
  simp only [Host.Core.run, hcore]

/-- The host is read once a step, with or without `rst`, whether or not a command is accepted (R10, R18). -/
theorem host_of_step {s t : State} (h : step s = .next t) : t.host = s.host.tail := by
  rcases next_state_cases h with ⟨-, rfl⟩ | ⟨-, -, rfl⟩ | ⟨_, -, -, rfl⟩ | ⟨_, _, -, -, rfl⟩ | ⟨_, _, -, -, rfl⟩ <;> rfl

theorem host_of_run : ∀ {n : Nat} {s t : State}, core.run n s = .next t → t.host = s.host.drop n
  | 0, _, _, h => by cases h; rfl
  | n + 1, s, t, h => by
    obtain ⟨u, hstep⟩ := exists_next_state s
    rw [run_succ_of_step n hstep] at h
    rw [host_of_run h, host_of_step hstep, List.drop_tail]

/-- The step reads `FLT` and the host's drives; the response port it only writes (R11, R13). -/
theorem step_eq_of_flt_eq_of_host_eq {s s' : State} (hflt : s.flt = s'.flt) (hhost : s.host = s'.host) :
    step s = step s' := by
  obtain ⟨f, h, r⟩ := s
  obtain ⟨f', h', r'⟩ := s'
  obtain rfl : f = f' := hflt
  obtain rfl : h = h' := hhost
  rfl

/-! A legal state (R12, R18, R32). -/

theorem legal_of_step {s t : State} (hs : s.legal = true) (h : step s = .next t) : t.legal = true := by
  have hflt : legalFlt s.flt = true := ((legal_iff s).1 hs).1
  rw [legal_iff]
  rcases next_state_cases h with ⟨-, rfl⟩ | ⟨-, -, rfl⟩ | ⟨_, -, hhalt, rfl⟩ | ⟨_, w, -, hrun, rfl⟩ | ⟨_, f, -, -, rfl⟩
  · exact ⟨rfl, .inl rfl⟩
  · exact ⟨hflt, .inl rfl⟩
  · exact ⟨hflt, .inr (.inr ⟨rfl, hhalt⟩)⟩
  · exact ⟨hflt, .inr (.inl ⟨w, rfl, hrun⟩)⟩
  · exact ⟨code_legal f, .inr (.inr ⟨rfl, code_ne_zero f⟩)⟩

/-! A halted unit (R117, R118). -/

/-- With `rst` low a halted unit waits or answers the latched code. -/
theorem next_state_of_halted {s t : State} (h : step s = .next t) (hs : s.flt ≠ 0) (hr : s.rst = false) :
    t.flt = s.flt ∧ t.rspRes = none := by
  rcases next_state_cases h with ⟨hr', -⟩ | ⟨-, -, rfl⟩ | ⟨_, -, -, rfl⟩ | ⟨_, _, -, hrun, -⟩ | ⟨_, _, -, hrun, -⟩
  · exact absurd (hr.symm.trans hr') Bool.false_ne_true
  · exact ⟨rfl, rfl⟩
  · exact ⟨rfl, rfl⟩
  · exact absurd hrun hs
  · exact absurd hrun hs

/-- `rst` is what the host drives first, and low when it drives nothing. -/
theorem rst_eq_false_of_forall_take {s : State} {n : Nat} (h : ∀ d ∈ s.host.take (n + 1), d.rst = false) :
    s.rst = false := by
  cases hhost : s.host with
  | nil => simp [State.rst, State.drive, hhost]
  | cons d rest =>
    rw [rst_of_host hhost]
    exact h d (by simp [hhost])

/-- As long as `rst` stays low, a halted unit keeps its cause; and it delivers no result, unless one stood on the port before
the first step. -/
theorem run_of_halted : ∀ (n : Nat) (s : State), s.flt ≠ 0 → (∀ d ∈ s.host.take n, d.rst = false) →
    ∃ t, core.run n s = .next t ∧ t.flt = s.flt ∧ (0 < n ∨ s.rspRes = none → t.rspRes = none)
  | 0, s, _, _ => ⟨s, rfl, rfl, fun h => h.resolve_left (Nat.lt_irrefl 0)⟩
  | n + 1, s, hs, hrst => by
    obtain ⟨u, hstep⟩ := exists_next_state s
    obtain ⟨hflt, hres⟩ := next_state_of_halted hstep hs (rst_eq_false_of_forall_take hrst)
    have hlater (d : Drive) (hd : d ∈ u.host.take n) : d.rst = false := by
      rw [host_of_step hstep, ← List.drop_one] at hd
      exact hrst d (List.mem_of_mem_drop (i := 1) (by rw [List.drop_take]; exact hd))
    obtain ⟨t, hrun, hflt', hres'⟩ := run_of_halted n u (hflt ▸ hs) hlater
    exact ⟨t, (run_succ_of_step n hstep).trans hrun, hflt'.trans hflt, fun _ => hres' (.inr hres)⟩

/-! The response of one step (R18, R32). -/

theorem rspValid_iff_accepted_of_step {s t : State} (h : step s = .next t) :
    t.rspValid = true ↔ ∃ c, s.accepted = some c := by
  rw [rspValid_eq_true_iff]
  rcases next_state_cases h with
    ⟨hr, rfl⟩ | ⟨-, hidle, rfl⟩ | ⟨c, ha, -, rfl⟩ | ⟨c, _, ha, -, rfl⟩ | ⟨c, _, ha, -, rfl⟩
  · simp [accepted_eq_none_of_rst hr]
  · simp [hidle]
  · simp [ha]
  · simp [ha]
  · simp [ha]

/-- A result is on the port exactly with `rsp_flt = 0` (R32): no fault's code is 0. -/
theorem rspRes_isSome_iff_of_step {s t : State} (h : step s = .next t) :
    t.rspRes.isSome = true ↔ t.rspFlt = some 0 := by
  rcases next_state_cases h with ⟨-, rfl⟩ | ⟨-, -, rfl⟩ | ⟨_, -, hhalt, rfl⟩ | ⟨_, w, -, -, rfl⟩ | ⟨_, f, -, -, rfl⟩
  · simp [State.rspRes, State.rspFlt]
  · simp [State.rspRes, State.rspFlt]
  · simpa [State.rspRes, State.rspFlt] using hhalt
  · simp [State.rspRes, State.rspFlt]
  · simpa [State.rspRes, State.rspFlt] using code_ne_zero f

end Sys2Proof.Machine

section
open Sys2Proof Sys2Proof.Machine

/-- Settles O3: whichever of its five things the step does, the response it leaves agrees with `FLT`. -/
theorem legalStateKeptByEveryStep : Obligations.LegalStateKeptByEveryStep := fun _ _ => legal_of_step

/-- Settles O10, by induction on the number of steps; the host's part holds of every run. -/
theorem haltedUntilReset : Obligations.HaltedUntilReset := by
  intro n s hs hrst
  obtain ⟨t, hrun, hflt, hres⟩ := run_of_halted n s hs hrst
  exact ⟨t, hrun, hflt, host_of_run hrun, fun hn => hres (.inl hn)⟩

/-- Settles O6, by induction on the number of steps. -/
theorem everyRunCompletes : Obligations.EveryRunCompletes := by
  intro n
  induction n with
  | zero => exact fun s => ⟨s, rfl⟩
  | succ n ih =>
    intro s
    obtain ⟨u, hstep⟩ := exists_next_state s
    rw [run_succ_of_step n hstep]
    exact ih u

/-- Settles O13: already the first steps agree, so the runs have one next state to go on from. -/
theorem lastResponseNeverObserved : Obligations.LastResponseNeverObserved := by
  intro n s s' hn hflt hhost
  obtain ⟨k, rfl⟩ := Nat.exists_eq_succ_of_ne_zero hn.ne'
  obtain ⟨u, hstep⟩ := exists_next_state s
  have hstep' : step s' = .next u := (step_eq_of_flt_eq_of_host_eq hflt hhost).symm.trans hstep
  exact (run_succ_of_step k hstep).trans (run_succ_of_step k hstep').symm

/-- Settles O14: after the first commands the host has one drive left, and with `FLT = 0` that is all the next step reads. -/
theorem resultIndependentOfHistory : Obligations.ResultIndependentOfHistory := by
  intro cs c t hrun hflt
  refine step_eq_of_flt_eq_of_host_eq (hflt.trans reset_flt.symm) ?_
  rw [host_of_run hrun, List.map_append]
  exact List.drop_left' (List.length_map _)

/-- Settles O15, from what the step leaves on the response port. -/
theorem oneResponsePerAcceptedCommand : Obligations.OneResponsePerAcceptedCommand := fun _ _ h =>
  ⟨rspValid_iff_accepted_of_step h, rspFlt_eq_flt_of_step h, rspRes_isSome_iff_of_step h⟩

/-- Settles O4: `FLT` is 0 and the port is empty. -/
theorem resetStateIsLegal : Obligations.ResetStateIsLegal := (legal_iff _).2 ⟨rfl, .inl reset_rsp⟩

end

/-! Safe and unsafe steps of a running unit (R39, R115), and the step of a presented or a missing command. -/

namespace Sys2Proof.Machine

/-- What the host moves on to, field by field. -/
theorem advance_of_host {s : State} {d : Drive} {rest : List Drive} (h : s.host = d :: rest) :
    s.advance = { s with host := rest, rsp := none } := by
  simp [State.advance, h]

theorem exec_of_halted (i : Instr) {s : State} (h : s.flt ≠ 0) : exec i s = .next s.answerHalted := by
  obtain ⟨r, hr⟩ := exec_eq_perform i
  exact (hr s).trans (perform_halted r h)

/-- In a halted unit too the step is `exec`: both answer the latched code (R117). -/
theorem step_eq_exec {s : State} {c : Command} {i : Instr} (ha : s.accepted = some c) (hd : decode c = .ok i) :
    step s = exec i s.advance := by
  by_cases hrun : s.flt = 0
  · exact step_exec ha hrun hd
  · exact (step_halted ha hrun).trans (exec_of_halted (s := s.advance) i hrun).symm

/-- In a running unit a command completes or raises one of the four faults (R39). -/
theorem completes_or_raises (i : Instr) {s : State} (hrun : s.flt = 0) :
    (∃ w, Completes i s w) ∨ ∃ f : Cause, Raises i s f.code := by
  rcases exec_cases i s with ⟨hhalt, -⟩ | ⟨-, w, h⟩ | ⟨-, f, h⟩
  · exact absurd hrun hhalt
  · exact .inl ⟨w, h⟩
  · exact .inr ⟨f, h⟩

theorem not_raises_of_completes {i : Instr} {s : State} {w : Word} {f : BitVec 3} (h : Completes i s w) :
    ¬Raises i s f := fun h' => by
  simpa using congrArg State.rsp (Host.Outcome.next.inj (h.symm.trans h'))

theorem safeRun_one_iff {s t : State} (hrun : s.flt = 0) (h : step s = .next t) : safeRun 1 s ↔ t.flt = 0 := by
  constructor
  · rintro ⟨-, u, hu, hsafe⟩
    obtain rfl : t = u := Host.Outcome.next.inj (h.symm.trans hu)
    exact hsafe
  · exact fun ht => ⟨hrun, t, h, ht⟩

/-- The ways a step of a running unit is safe. -/
def SafeStep (s : State) : Prop :=
  s.rst = true ∨ s.accepted = none ∨
    ∃ (c : Command) (i : Instr) (w : Word), s.accepted = some c ∧ decode c = .ok i ∧ Completes i s.advance w

/-- The ways it is not. -/
def FaultingStep (s : State) : Prop :=
  ∃ c : Command, s.accepted = some c ∧
    (reservedOpcode c.op = true ∨
      ∃ (i : Instr) (f : BitVec 3), decode c = .ok i ∧ 1 ≤ f.toNat ∧ f.toNat ≤ 4 ∧ Raises i s.advance f)

theorem safeRun_of_safeStep {s : State} (hrun : s.flt = 0) (h : SafeStep s) : safeRun 1 s := by
  rcases h with hrst | hidle | ⟨c, i, w, ha, hd, hw⟩
  · exact (safeRun_one_iff hrun (step_reset hrst)).2 rfl
  · obtain ⟨t, ht⟩ := exists_next_state s
    refine (safeRun_one_iff hrun ht).2 (by_contra fun hne => ?_)
    have hchanged : t.flt ≠ s.flt := fun heq => hne (heq.trans hrun)
    rcases writer_of_flt_ne ht hchanged with ⟨-, hzero⟩ | ⟨-, -, ⟨c, ha⟩, -⟩
    · exact hne hzero
    · exact absurd (hidle.symm.trans ha) nofun
  · exact (safeRun_one_iff hrun ((step_exec ha hrun hd).trans hw)).2 hrun

theorem not_safeRun_of_faultingStep {s : State} (hrun : s.flt = 0) (h : FaultingStep s) : ¬safeRun 1 s := by
  obtain ⟨c, ha, hres | ⟨i, f, hd, hlow, -, hf⟩⟩ := h
  · rw [safeRun_one_iff hrun (step_reserved ha hrun (decode_of_reservedOpcode hres))]
    exact code_ne_zero .illegalCommand
  · rw [safeRun_one_iff hrun ((step_exec ha hrun hd).trans hf)]
    rintro (rfl : f = 0)
    exact absurd hlow (by decide)

/-- There is no third way. -/
theorem safeStep_or_faultingStep {s : State} (hrun : s.flt = 0) : SafeStep s ∨ FaultingStep s := by
  cases ha : s.accepted with
  | none => exact .inl (.inr (.inl ha))
  | some c =>
    by_cases hres : reservedOpcode c.op = true
    · exact .inr ⟨c, ha, .inl hres⟩
    · obtain ⟨i, hd⟩ := exists_decode_of_not_reservedOpcode hres
      rcases completes_or_raises i (s := s.advance) hrun with ⟨w, hw⟩ | ⟨f, hf⟩
      · exact .inl (.inr (.inr ⟨c, i, w, ha, hd, hw⟩))
      · obtain ⟨hlow, hhigh⟩ := one_le_code_and_code_le_four f
        exact .inr ⟨c, ha, .inr ⟨i, f.code, hd, hlow, hhigh, hf⟩⟩

end Sys2Proof.Machine

section
open Sys2Proof Sys2Proof.Machine

/-- Settles O11: the safe ways are safe, the faulting ways are not, and one of them is always taken. -/
theorem safeStepsOfRunningUnit : Obligations.SafeStepsOfRunningUnit := by
  intro s hrun
  have hsafe := safeRun_of_safeStep hrun
  have hunsafe := not_safeRun_of_faultingStep hrun
  have hcover := safeStep_or_faultingStep hrun
  exact ⟨⟨fun h => hcover.resolve_right fun hf => hunsafe hf h, hsafe⟩,
    ⟨fun h => hcover.resolve_left fun hs => h (hsafe hs), hunsafe⟩⟩

/-- Settles O7: a running unit executes what it decodes; a halted one answers its code, and so does `exec`. -/
theorem stepRunsDecodedCommand : Obligations.StepRunsDecodedCommand := fun _ _ _ _ hhost hd =>
  advance_of_host hhost ▸ step_eq_exec (accepted_of_host hhost) hd

/-- Settles O12: every meaning is one `perform`, which looks at `FLT` first. -/
theorem haltedMeaningsExecuteNothing : Obligations.HaltedMeaningsExecuteNothing := fun i _ h => exec_of_halted i h

/-- Settles O16, for an empty drive and for a host with nothing more to drive. -/
theorem idleUnitWaits : Obligations.IdleUnitWaits := by
  refine ⟨fun s rest hhost => ?_, fun s hhost => ?_⟩
  · rw [step_idle (rst_of_host hhost) (congrArg Drive.cmd (drive_of_host hhost)), advance_of_host hhost]
  · have hdrive : s.drive = ⟨false, none⟩ := by rw [State.drive, hhost]; rfl
    have hadvance : s.advance = { s with rsp := none } := by simp [State.advance, hhost]
    rw [step_idle (congrArg Drive.rst hdrive) (congrArg Drive.cmd hdrive), hadvance]

end

/-! The encoding (R30, R31, R36): the buses of a built instruction hold exactly the bits its mnemonic reads, and an
instruction is built back from its buses. -/

namespace Sys2Proof

/-- The zero-extended low slice of a bus is the bus modulo its width. -/
theorem toNat_setWidth_lowBits {n : Nat} (h : n ≤ 128) (x : Word) :
    ((lowBits n x).setWidth 128).toNat = x.toNat % 2 ^ n := by
  rw [BitVec.toNat_setWidth_of_le h, lowBits, BitVec.toNat_setWidth]

theorem toNat_mod_whole (x : Word) : x.toNat = x.toNat % 2 ^ 128 := (Nat.mod_eq_of_lt x.isLt).symm

theorem toNat_mod_unread (x : Word) : (0 : Word).toNat = x.toNat % 2 ^ 0 := (Nat.mod_one _).symm

/-- Bus `a` of a built instruction: the bits its mnemonic reads, zeros above (R31, R36). -/
theorem toNat_busA_build (m : Mnemonic) (a b : Word) : (m.build a b).busA.toNat = a.toNat % 2 ^ m.aBits := by
  cases m
  case zero => exact toNat_mod_unread a
  case froms8 | fromu8 | froms16 | fromu16 | froms32 | fromu32 | froms64 | fromu64 | fromhilo | fromf64 | invert =>
    exact toNat_setWidth_lowBits (by decide) a
  all_goals exact toNat_mod_whole a

/-- Bus `b` of a built instruction. -/
theorem toNat_busB_build (m : Mnemonic) (a b : Word) : (m.build a b).busB.toNat = b.toNat % 2 ^ m.bBits := by
  cases m
  case fromhilo => exact toNat_setWidth_lowBits (by decide) b
  case add | sub | eq | lt | gt | mul | div | umul | udiv | mulinv | umulinv => exact toNat_mod_whole b
  all_goals exact toNat_mod_unread b

/-- An instruction is built back from its mnemonic and its buses. -/
theorem build_busA_busB (i : Instr) : i.mnemonic.build i.busA i.busB = i := by
  cases i <;> simp only [Instr.mnemonic, Instr.busA, Instr.busB, Mnemonic.build]
  case froms8 | fromu8 | froms16 | fromu16 | froms32 | fromu32 | froms64 | fromu64 | fromf64 | invert =>
    rw [lowBits_setWidth (by decide)]
  case fromhilo => rw [lowBits_setWidth (by decide), lowBits_setWidth (by decide)]

theorem decode_encode (i : Instr) : decode (encode i) = .ok i := by
  rw [decode_of_mnemonicOf (mnemonicOf_opcode i.mnemonic)]
  exact congrArg Except.ok (build_busA_busB i)

/-- The bits a mnemonic does not read are lost in what it builds. -/
theorem build_eq_of_mod_eq {m : Mnemonic} {a a' b b' : Word} (ha : a.toNat % 2 ^ m.aBits = a'.toNat % 2 ^ m.aBits)
    (hb : b.toNat % 2 ^ m.bBits = b'.toNat % 2 ^ m.bBits) : m.build a b = m.build a' b' := by
  have hA : (m.build a b).busA = (m.build a' b').busA :=
    BitVec.eq_of_toNat_eq (by rw [toNat_busA_build, toNat_busA_build, ha])
  have hB : (m.build a b).busB = (m.build a' b').busB :=
    BitVec.eq_of_toNat_eq (by rw [toNat_busB_build, toNat_busB_build, hb])
  rw [← build_busA_busB (m.build a b), ← build_busA_busB (m.build a' b'), hA, hB, mnemonic_build, mnemonic_build]

/-- What the check of a command with zeros in its ignored bits says (R36). -/
theorem ignoredZero_iff (c : Command) (m : Mnemonic) :
    c.ignoredZero m = true ↔ c.a.toNat < 2 ^ m.aBits ∧ c.b.toNat < 2 ^ m.bBits := by
  simp [Command.ignoredZero]

/-- The encoding of what a command decodes to is the command with its ignored bits cleared. -/
theorem encode_build {c : Command} {m : Mnemonic} (hm : mnemonicOf c.op = some m) (hc : c.ignoredZero m = true) :
    encode (m.build c.a c.b) = c := by
  obtain ⟨ha, hb⟩ := (ignoredZero_iff c m).1 hc
  have hA : (m.build c.a c.b).busA = c.a :=
    BitVec.eq_of_toNat_eq ((toNat_busA_build m _ _).trans (Nat.mod_eq_of_lt ha))
  have hB : (m.build c.a c.b).busB = c.b :=
    BitVec.eq_of_toNat_eq ((toNat_busB_build m _ _).trans (Nat.mod_eq_of_lt hb))
  rw [encode, hA, hB, mnemonic_build, opcode_of_mnemonicOf hm]

end Sys2Proof

namespace Sys2Proof.Machine

/-- Two presented commands that decode alike step alike, in a halted unit too. -/
theorem step_eq_of_decode_eq {s : State} {c c' : Command} {i : Instr} (rest : List Drive) (hd : decode c = .ok i)
    (hd' : decode c' = .ok i) :
    step { s with host := ⟨false, some c⟩ :: rest } = step { s with host := ⟨false, some c'⟩ :: rest } := by
  rw [step_eq_exec (accepted_of_host rfl) hd, step_eq_exec (accepted_of_host rfl) hd', advance_of_host rfl,
    advance_of_host rfl]

end Sys2Proof.Machine

section
open Sys2Proof Sys2Proof.Machine

/-- Settles O18: the listing word keeps the triple, the map its opcode, and the buses the operands. -/
theorem decodeInvertsEncode : Obligations.DecodeInvertsEncode := by
  intro i
  rw [ofBits_toBits]
  exact decode_encode i

/-- Settles O19: with zeros in the ignored bits the encoder's buses are the command's. -/
theorem encodeInvertsDecode : Obligations.EncodeInvertsDecode := fun _ _ hm hc =>
  ⟨_, decode_of_mnemonicOf hm, encode_build hm hc⟩

/-- Settles O20: the two commands build one instruction. -/
theorem ignoredBitsHaveNoEffect : Obligations.IgnoredBitsHaveNoEffect := by
  intro s c c' m rest hop hm ha hb
  refine step_eq_of_decode_eq rest (decode_of_mnemonicOf hm) ?_
  rw [decode_of_mnemonicOf (hop ▸ hm), build_eq_of_mod_eq ha hb]

/-- Settles O21, by running the decoder on each word. -/
theorem sampleWordsDecode : Obligations.SampleWordsDecode := by
  refine ⟨?_, ?_, ?_, ?_, ?_, ?_, ?_, ?_, ?_⟩ <;> decide +kernel

/-- Settles O22, row by row: a command that reads a slice, or both limbs, or its buses whole. -/
theorem opcodeMapReadsOperandSlices : Obligations.OpcodeMapReadsOperandSlices :=
  ⟨decodes_build .zero,
    decodes_slice (m := .froms8) .froms8 (by decide) fun _ _ => rfl,
    decodes_slice (m := .froms16) .froms16 (by decide) fun _ _ => rfl,
    decodes_slice (m := .froms32) .froms32 (by decide) fun _ _ => rfl,
    decodes_slice (m := .froms64) .froms64 (by decide) fun _ _ => rfl,
    decodes_slice (m := .fromu8) .fromu8 (by decide) fun _ _ => rfl,
    decodes_slice (m := .fromu16) .fromu16 (by decide) fun _ _ => rfl,
    decodes_slice (m := .fromu32) .fromu32 (by decide) fun _ _ => rfl,
    decodes_slice (m := .fromu64) .fromu64 (by decide) fun _ _ => rfl,
    decodes_fromhilo,
    decodes_slice (m := .fromf64) .fromf64 (by decide) fun _ _ => rfl,
    decodes_build .add, decodes_build .sub, decodes_build .neg, decodes_build .pos, decodes_build .eq, decodes_build .lt,
    decodes_build .gt, decodes_build .tobool, decodes_build .mul, decodes_build .div, decodes_build .umul,
    decodes_build .udiv,
    decodes_slice (m := .invert) .invert (by decide) fun _ _ => rfl,
    decodes_build .mulinv, decodes_build .umulinv, decodes_build .gethigh, decodes_build .getlow, decodes_build .getint,
    decodes_build .round, decodes_build .getdouble⟩

end

/-! The laws of `MUL` and `DIV` (R43, R45, R52). Read in integers each delivers a quotient truncated toward zero, and the
word it delivers, where it delivers one, is the only word with that value; so each law is one of truncated division. -/

namespace Sys2Proof.Machine

theorem completes_iff {i : Instr} {s : State} {r : Except Cause Word} {w : Word} (hi : exec i s = perform s r)
    (hrun : s.flt = 0) : Completes i s w ↔ r = .ok w := by
  refine ⟨fun h => ?_, fun hr => completes_of_perform hi hr hrun⟩
  cases r with
  | ok v =>
    have hv : Completes i s v := completes_of_perform hi rfl hrun
    simpa using congrArg State.rsp (Host.Outcome.next.inj (hv.symm.trans h))
  | error c => exact absurd (raises_of_perform hi rfl hrun) (not_raises_of_completes h)

/-- The sign step delivers a word exactly when the word has the signed magnitude (R41). -/
theorem applySign_eq_ok_iff {m : Nat} {negative : Bool} {w : Word} :
    applySign m negative = .ok w ↔ w.toInt = if negative then -(m : Int) else (m : Int) := by
  have hlow : -2 ^ 127 ≤ w.toInt := BitVec.le_toInt w
  have hhigh : w.toInt < 2 ^ 127 := BitVec.toInt_lt
  by_cases hfault : m > 2 ^ 127 ∨ (m = 2 ^ 127 ∧ negative = false)
  · have hnone : w.toInt ≠ if negative then -(m : Int) else (m : Int) := by
      cases negative <;> simp at hfault ⊢ <;> omega
    simp [applySign_error hfault, hnone]
  · obtain ⟨v, hv, hval⟩ := applySign_ok hfault
    rw [hv, ← hval, Except.ok.injEq, BitVec.toInt_inj, eq_comm]

/-- A computation that faults with `c` under `p` and delivers otherwise has no other fault. -/
theorem cause_eq_of_error {α : Type} {p : Prop} {r : Except Cause α} {c f : Cause} (hfault : p → r = .error c)
    (hfits : ¬p → ∃ m, r = .ok m) (h : r = .error f) : f = c := by
  by_cases hp : p
  · exact (Except.error.inj ((hfault hp).symm.trans h)).symm
  · obtain ⟨m, hm⟩ := hfits hp
    exact absurd (hm.symm.trans h) nofun

theorem cause_of_applySign_error {m : Nat} {negative : Bool} {c : Cause} (h : applySign m negative = .error c) :
    c = .arithmeticOverflow :=
  cause_eq_of_error applySign_error (fun hfits => (applySign_ok hfits).imp fun _ hw => hw.1) h

/-- An integer's magnitude and sign test, on either side of 0. -/
theorem sign_cases (x : ℤ) :
    ((x.natAbs : ℤ) = x ∧ decide (x < 0) = false) ∨ (-(x.natAbs : ℤ) = x ∧ decide (x < 0) = true) := by
  rcases lt_or_ge x 0 with h | h
  · exact .inr ⟨by omega, decide_eq_true h⟩
  · exact .inl ⟨by omega, decide_eq_false h.not_gt⟩

/-- The magnitudes' product cut by `D`, with the sign put back, is the product truncated toward zero (R43). -/
theorem signed_mul_div (x y : ℤ) (D : ℕ) :
    (if decide (x < 0) != decide (y < 0) then -((x.natAbs * y.natAbs / D : ℕ) : ℤ)
      else ((x.natAbs * y.natAbs / D : ℕ) : ℤ)) = (x * y).tdiv D := by
  rw [Int.ofNat_tdiv, Nat.cast_mul]
  rcases sign_cases x with ⟨hx, sx⟩ | ⟨hx, sx⟩ <;> rcases sign_cases y with ⟨hy, sy⟩ | ⟨hy, sy⟩ <;>
    rw [sx, sy, ← hx, ← hy] <;> simp [Int.neg_tdiv]

/-- The magnitudes' quotient, with the sign put back, is the quotient truncated toward zero (R52). -/
theorem signed_div (x y : ℤ) (D : ℕ) :
    (if decide (x < 0) != decide (y < 0) then -((x.natAbs * D / y.natAbs : ℕ) : ℤ)
      else ((x.natAbs * D / y.natAbs : ℕ) : ℤ)) = (x * D).tdiv y := by
  rw [Int.ofNat_tdiv, Nat.cast_mul]
  rcases sign_cases x with ⟨hx, sx⟩ | ⟨hx, sx⟩ <;> rcases sign_cases y with ⟨hy, sy⟩ | ⟨hy, sy⟩ <;>
    rw [sx, sy, ← hx, ← hy] <;> simp [Int.neg_tdiv, Int.tdiv_neg]

/-- The magnitudes of two words pass the core's first check (R42, R43). -/
def mulChecked (a b : Word) : Prop := hiLimb a.toInt.natAbs * hiLimb b.toInt.natAbs ≤ 2 ^ 63

/-- When `MUL` delivers, and what (R43). -/
theorem mulWords_eq_ok_iff {a b w : Word} :
    mulWords a b = .ok w ↔ mulChecked a b ∧ w.toInt = (a.toInt * b.toInt).tdiv (2 ^ 64 : ℕ) := by
  by_cases hcheck : mulChecked a b
  · rw [mulWords_eq_applySign (Nat.not_lt.2 hcheck), applySign_eq_ok_iff, signed_mul_div]
    exact (and_iff_right hcheck).symm
  · have herr := mulWords_of_error (umul_error (.inl (Nat.not_le.1 hcheck)))
    simp [herr, hcheck]

/-- `MUL`'s only fault (R111). -/
theorem cause_of_mulWords_error {a b : Word} {c : Cause} (h : mulWords a b = .error c) : c = .arithmeticOverflow := by
  by_cases hcheck : mulChecked a b
  · rw [mulWords_eq_applySign (Nat.not_lt.2 hcheck)] at h
    exact cause_of_applySign_error h
  · rw [mulWords_of_error (umul_error (.inl (Nat.not_le.1 hcheck)))] at h
    exact (Except.error.inj h).symm

theorem divWords_zero (a : Word) : divWords a 0 = .error .invalidDivisor := divWords_of_error (udiv_zero _)

/-- When `DIV` delivers, and what (R52). -/
theorem divWords_eq_ok_iff {a b w : Word} :
    divWords a b = .ok w ↔ b ≠ 0 ∧ w.toInt = (a.toInt * (2 ^ 64 : ℕ)).tdiv b.toInt := by
  by_cases hzero : b = 0
  · subst hzero
    rw [divWords_zero]
    simp
  · have hne : b.toInt.natAbs ≠ 0 := fun h => hzero (BitVec.eq_of_toInt_eq (Int.natAbs_eq_zero.1 h))
    rw [divWords_eq_applySign hne, applySign_eq_ok_iff, signed_div]
    exact (and_iff_right hzero).symm

theorem toInt_one : Word.one.toInt = (2 ^ 64 : ℕ) := by decide

theorem toInt_neg_of_ne_min {a : Word} (h : a ≠ Word.min) : (-a).toInt = -a.toInt :=
  toInt_neg_of_ne (mt (toInt_eq_neg_two_pow_127_iff a).1 h)

theorem toInt_zero : (0 : Word).toInt = 0 := by decide

theorem mulChecked_neg {a b : Word} (h : b ≠ Word.min) : mulChecked a (-b) ↔ mulChecked a b := by
  rw [mulChecked, toInt_neg_of_ne_min h, Int.natAbs_neg, mulChecked]

/-- Both conditions on a product are symmetric. -/
theorem mulWords_ok_comm {a b w : Word} (h : mulWords a b = .ok w) : mulWords b a = .ok w := by
  obtain ⟨hcheck, hval⟩ := mulWords_eq_ok_iff.1 h
  exact mulWords_eq_ok_iff.2 ⟨(Nat.mul_comm _ _).trans_le hcheck, hval.trans (by rw [mul_comm])⟩

theorem mulWords_one (x : Word) : mulWords x Word.one = .ok x := by
  have hle := natAbs_toInt_le x
  refine mulWords_eq_ok_iff.2 ⟨?_, ?_⟩
  · rw [mulChecked, toInt_one, Int.natAbs_natCast, hiLimb, hiLimb]
    omega
  · rw [toInt_one, Int.mul_tdiv_cancel _ (by decide)]

theorem mulWords_zero (x : Word) : mulWords x 0 = .ok 0 :=
  mulWords_eq_ok_iff.2 ⟨by simp [mulChecked, hiLimb], by simp⟩

/-- A word with high limb `2^62` is its own magnitude, which has that high limb too (R21). -/
theorem hiLimb_natAbs_of_hi {x : Word} (h : Word.hi x = 0x4000000000000000) : hiLimb x.toInt.natAbs = 2 ^ 62 := by
  have hlo : (Word.lo x).toNat < 2 ^ 64 := (Word.lo x).isLt
  have hhi : (0x4000000000000000 : Limb).toInt = 2 ^ 62 := by decide
  rw [← hi_append_lo x, toInt_limbs, h, hhi, hiLimb]
  omega

theorem mulWords_neg {a b w : Word} (hb : b ≠ Word.min) (hw : w ≠ Word.min) (h : mulWords a b = .ok w) :
    mulWords a (-b) = .ok (-w) := by
  obtain ⟨hcheck, hval⟩ := mulWords_eq_ok_iff.1 h
  refine mulWords_eq_ok_iff.2 ⟨(mulChecked_neg hb).2 hcheck, ?_⟩
  rw [toInt_neg_of_ne_min hb, toInt_neg_of_ne_min hw, hval, mul_neg, Int.neg_tdiv]

/-- Where the product is `MIN`, the other sign has no word for it. -/
theorem mulWords_neg_of_min {a b : Word} (hb : b ≠ Word.min) (h : mulWords a b = .ok Word.min) :
    mulWords a (-b) = .error .arithmeticOverflow := by
  obtain ⟨-, hval⟩ := mulWords_eq_ok_iff.1 h
  cases hneg : mulWords a (-b) with
  | error c => rw [cause_of_mulWords_error hneg]
  | ok w =>
    have hmin : Word.min.toInt = -2 ^ 127 := by decide
    have hlt : w.toInt < 2 ^ 127 := BitVec.toInt_lt
    obtain ⟨-, hval'⟩ := mulWords_eq_ok_iff.1 hneg
    rw [toInt_neg_of_ne_min hb, mul_neg, Int.neg_tdiv, ← hval, hmin] at hval'
    omega

theorem divWords_one (x : Word) : divWords x Word.one = .ok x :=
  divWords_eq_ok_iff.2 ⟨by decide, by rw [toInt_one, Int.mul_tdiv_cancel _ (by decide)]⟩

theorem divWords_self {x : Word} (h : x ≠ 0) : divWords x x = .ok Word.one := by
  have hne : x.toInt ≠ 0 := fun h0 => h (BitVec.eq_of_toInt_eq (h0.trans toInt_zero.symm))
  exact divWords_eq_ok_iff.2 ⟨h, by rw [toInt_one, Int.mul_tdiv_cancel_left _ hne]⟩

theorem divWords_neg_neg {a b w : Word} (ha : a ≠ Word.min) (hb : b ≠ Word.min) (h : divWords a b = .ok w) :
    divWords (-a) (-b) = .ok w := by
  obtain ⟨hne, hval⟩ := divWords_eq_ok_iff.1 h
  refine divWords_eq_ok_iff.2 ⟨neg_ne_zero.2 hne, ?_⟩
  rw [toInt_neg_of_ne_min ha, toInt_neg_of_ne_min hb, hval, neg_mul, Int.neg_tdiv_neg]

theorem divWords_neg {a b w : Word} (ha : a ≠ Word.min) (hw : w ≠ Word.min) (h : divWords a b = .ok w) :
    divWords (-a) b = .ok (-w) := by
  obtain ⟨hne, hval⟩ := divWords_eq_ok_iff.1 h
  refine divWords_eq_ok_iff.2 ⟨hne, ?_⟩
  rw [toInt_neg_of_ne_min ha, toInt_neg_of_ne_min hw, hval, neg_mul, Int.neg_tdiv]

/-! `UDIV` on words (R50, R51). -/

theorem exec_udiv (a b : Word) (s : State) :
    exec (.udiv a b) s = perform s ((udiv a.toNat b.toNat).map placeWord) := rfl

theorem raises_udiv {s : State} {a b : Word} {c : Cause} (hrun : s.flt = 0) (h : udiv a.toNat b.toNat = .error c) :
    Raises (.udiv a b) s c.code :=
  raises_of_perform (exec_udiv a b s) (congrArg (Except.map placeWord) h) hrun

theorem completes_udiv {s : State} {a b : Word} {q : Nat} (hrun : s.flt = 0) (h : udiv a.toNat b.toNat = .ok q) :
    Completes (.udiv a b) s (BitVec.ofNat 128 q) :=
  completes_of_perform (exec_udiv a b s) (congrArg (Except.map placeWord) h) hrun

/-- Past both tests the divider delivers, whatever its loop computes (R50). -/
theorem exists_udiv_eq_ok {a b : Nat} (hb : b ≠ 0) (ha : ¬a / b ≥ 2 ^ 64) : ∃ q, udiv a b = .ok q :=
  ⟨_, (if_neg hb).trans (if_neg ha)⟩

/-- The rule's loop, run on the pair of R50 (d). -/
theorem udiv_two_pow_127_succ : udiv (2 ^ 127) (2 ^ 127 + 1) = .ok (2 ^ 64) := by decide +kernel

end Sys2Proof.Machine

section
open Sys2Proof Sys2Proof.Machine

/-- Settles O37: the limb sum is the product cut at its 64th digit, and past the checks it fits in a word. -/
theorem umulDeliversMiddleOfProduct : Obligations.UmulDeliversMiddleOfProduct := by
  intro s a b hrun
  dsimp only
  rw [← limbSum_eq_mul_div]
  split
  next hfault => exact raises_umul hrun hfault
  next hfits =>
    have hlt : limbSum a.toNat b.toNat < 2 ^ 128 := not_le.1 (not_or.1 hfits).2
    exact ⟨_, completes_umul hrun hfits, (BitVec.toNat_ofNat _ _).trans (Nat.mod_eq_of_lt hlt)⟩

/-- Settles O39: each law is one of truncated division; at high limbs of `2^62` the core's first check fires. -/
theorem mulIdentityZeroAndBoundary : Obligations.MulIdentityZeroAndBoundary := by
  intro s x y hrun
  refine ⟨completes_of_perform (exec_mul _ _ s) (mulWords_one x) hrun,
    completes_of_perform (exec_mul _ _ s) (mulWords_ok_comm (mulWords_one x)) hrun,
    completes_of_perform (exec_mul _ _ s) (mulWords_zero x) hrun,
    completes_of_perform (exec_mul _ _ s) (mulWords_ok_comm (mulWords_zero x)) hrun, fun hx hy => ?_⟩
  have hcheck : hiLimb x.toInt.natAbs * hiLimb y.toInt.natAbs > 2 ^ 63 := by
    rw [hiLimb_natAbs_of_hi hx, hiLimb_natAbs_of_hi hy]
    decide
  exact raises_of_perform (exec_mul x y s) (mulWords_of_error (umul_error (.inl hcheck))) hrun

/-- Settles O40: the first check sees magnitudes only, and a truncated quotient changes its sign with its dividend. -/
theorem mulSignLaw : Obligations.MulSignLaw := by
  intro s a b hrun _ hb
  refine ⟨fun w hw hmin => ?_, fun hw => ?_⟩
  · rw [completes_iff (exec_mul a b s) hrun] at hw
    exact completes_of_perform (exec_mul a (-b) s) (mulWords_neg hb hmin hw) hrun
  · rw [completes_iff (exec_mul a b s) hrun] at hw
    exact raises_of_perform (exec_mul a (-b) s) (mulWords_neg_of_min hb hw) hrun

/-- Settles O45: each law is one of truncated division. -/
theorem divIdentityAndSignLaws : Obligations.DivIdentityAndSignLaws := by
  intro s a b hrun
  refine ⟨completes_of_perform (exec_div _ _ s) (divWords_one a) hrun,
    fun hne => completes_of_perform (exec_div _ _ s) (divWords_self hne) hrun,
    fun ha hb w hw => ?_, fun ha w hw hmin => ?_⟩
  · rw [completes_iff (exec_div a b s) hrun] at hw
    exact completes_of_perform (exec_div _ _ s) (divWords_neg_neg ha hb hw) hrun
  · rw [completes_iff (exec_div a b s) hrun] at hw
    exact completes_of_perform (exec_div _ _ s) (divWords_neg ha hmin hw) hrun

/-- Settles O42: where the loop loses nothing the quotient is exact, and it fits in a word. -/
theorem udivIsExactTruncatedQuotient : Obligations.UdivIsExactTruncatedQuotient := by
  intro s a b hrun hb hden ha
  refine ⟨_, completes_udiv hrun (udiv_eq_div a.isLt hb.ne' b.isLt hden ha), ?_⟩
  exact (BitVec.toNat_ofNat _ _).trans (Nat.mod_eq_of_lt (mul_pow_div_lt hb ha (le_refl 64)))

/-- Settles O41, test by test. -/
theorem udivFaultsOrCompletes : Obligations.UdivFaultsOrCompletes := by
  refine ⟨decodes_build .udiv, fun s a b hrun => ?_⟩
  split
  next hzero => exact raises_udiv hrun (hzero ▸ udiv_zero a.toNat)
  next hzero =>
    split
    next hover => exact raises_udiv hrun (udiv_overflow hzero hover)
    next hfits =>
      obtain ⟨q, hq⟩ := exists_udiv_eq_ok hzero hfits
      exact ⟨_, completes_udiv hrun hq⟩

/-- Settles O43, by running the loop. -/
theorem udivInexactAboveTwoPow127 : Obligations.UdivInexactAboveTwoPow127 := fun _ hrun =>
  ⟨completes_udiv hrun udiv_two_pow_127_succ, by decide⟩

end

/-! What the facade's comparisons sum to (R104 to R107), the extracted limbs (R82, R90, R91), and the host's `FROM #n`
(R37). -/

namespace Sys2Proof.Machine

/-- Exactly one of the three signed comparisons holds (R106). -/
theorem comparisons_sum (a b : Word) :
    (if a = b then 1 else 0 : Word).toNat + (if a.toInt < b.toInt then 1 else 0 : Word).toNat +
      (if b.toInt < a.toInt then 1 else 0 : Word).toNat = 1 := by
  simp only [← BitVec.toInt_inj (x := a)]
  rcases lt_trichotomy a.toInt b.toInt with h | h | h
  · rw [if_neg h.ne, if_pos h, if_neg h.not_gt]; rfl
  · rw [if_pos h, if_neg h.not_lt, if_neg h.not_gt]; rfl
  · rw [if_neg h.ne', if_neg h.not_gt, if_pos h]; rfl

/-- `TOBOOL` is the complement of `EQ` with the zero word (R107). -/
theorem tobool_eq_one_sub_eq (a : Word) :
    (if a.toNat = 0 then 0 else 1 : Word) = 1 - if a = 0 then 1 else 0 := by
  have hiff : a.toNat = 0 ↔ a = 0 := BitVec.toNat_inj (y := (0 : Word))
  by_cases h : a = 0
  · rw [if_pos (hiff.2 h), if_pos h]; rfl
  · rw [if_neg (mt hiff.1 h), if_neg h]; rfl

theorem exec_getlow (a : Word) (s : State) : exec (.getlow a) s = perform s (.ok (place64 (Word.lo a))) := rfl

/-- The low limb is what the value adds to its floor (R91). -/
theorem lo_div_eq_val_sub_floor (a : Word) : ((Word.lo a).toNat : ℚ) / 2 ^ 64 = Word.val a - ⌊Word.val a⌋ := by
  have hval : Word.val a = (Word.hi a).toInt + ((Word.lo a).toNat : ℚ) / 2 ^ 64 := by
    rw [← val_limbs, hi_append_lo]
  rw [floor_val, hval, add_sub_cancel_left]

theorem hi_limbs (h l : Limb) : Word.hi (h ++ l) = h := by
  rw [Word.hi, BitVec.extractLsb'_append_eq_left]

theorem lo_limbs (h l : Limb) : Word.lo (h ++ l) = l := by
  rw [Word.lo, BitVec.extractLsb'_append_eq_right]

/-- Truncation cuts nothing off an integer's word (R82). -/
theorem tdiv_integer (p : Limb) : (p ++ 0#64 : Word).toInt.tdiv (2 ^ 64) = p.toInt := by
  rw [toInt_limbs, BitVec.toNat_zero, Nat.cast_zero, add_zero, Int.mul_tdiv_cancel_left _ (by decide)]

theorem step_of_completes {s : State} {c : Command} {rest : List Drive} {i : Instr} {w : Word}
    (hhost : s.host = ⟨false, some c⟩ :: rest) (hd : decode c = .ok i) (hw : Completes i s.advance w) :
    step s = .next { s with host := rest, rsp := some (.ok w) } := by
  rw [step_eq_exec (accepted_of_host hhost) hd, hw, advance_of_host hhost]

/-- The literal `#n` on the slice `FROMS64` reads is the pattern of `n` (R36, R37). -/
theorem lowBits_int (ts : Temps) (n : ℤ) : lowBits 64 (optionBus ts 64 (some (.int n))) = BitVec.ofInt 64 n := by
  apply BitVec.eq_of_toNat_eq
  simp only [optionBus, Source.bus, lowBits, BitVec.toNat_setWidth, BitVec.toNat_ofNat, BitVec.toNat_ofInt]
  omega

/-- `FROMS64` of the pattern of `n` delivers `from(n)` (R7, R74). -/
theorem fromSigned_ofInt {n : ℤ} (hlow : -2 ^ 63 ≤ n) (hhigh : n < 2 ^ 63) :
    fromSigned (BitVec.ofInt 64 n) = Word.from n := by
  rw [fromSigned, BitVec.toInt_ofInt_eq_self (by decide) hlow hhigh, Word.from]

theorem read_write_same (ts : Temps) (x : Nat) (w : Word) : (ts.write x w).read x = w := by
  simp [Temps.write, Temps.read]

end Sys2Proof.Machine
section
open Sys2Proof Sys2Proof.Machine

/-- Settles O33: a difference is a sum with the negation, the order of two integers is total, and `TOBOOL` asks `EQ`'s
question. -/
theorem facadeLawsAgree : Obligations.FacadeLawsAgree := by
  intro s a b hrun
  have hsub : Completes (.sub a b) s (a + -b) := BitVec.sub_eq_add_neg a b ▸ completes_sub hrun a b
  exact ⟨⟨-b, a + -b, completes_neg hrun b, completes_add hrun a (-b), hsub⟩,
    ⟨_, _, _, completes_eq hrun a b, completes_lt hrun a b, completes_gt hrun a b, comparisons_sum a b⟩,
    ⟨_, _, completes_eq hrun a 0, completes_tobool hrun a, tobool_eq_one_sub_eq a⟩⟩

/-- Settles O52: the two limbs are the word's, and the lower one is the fraction. -/
theorem getLowIsFractionAboveFloor : Obligations.GetLowIsFractionAboveFloor := by
  refine ⟨decodes_build .getlow, fun s a hrun => ⟨Word.hi a, Word.lo a, ?_, ?_, lo_div_eq_val_sub_floor a, ?_⟩⟩
  · exact completes_of_perform (exec_getlow a s) rfl hrun
  · exact completes_of_perform (exec_gethigh a s) rfl hrun
  · simpa only [hi_append_lo] using completes_fromhilo hrun (Word.hi a) (Word.lo a)

/-- Settles O55: the integer's word is its pattern above a zero limb. -/
theorem integerRoundTrip : Obligations.IntegerRoundTrip := by
  intro s p hrun
  obtain ⟨r, hr, hval⟩ := getIntTruncatesTowardZero.2 s (p ++ 0#64) hrun
  obtain rfl : r = p := BitVec.eq_of_toInt_eq (hval.trans (tdiv_integer p))
  refine ⟨r ++ 0#64, completes_froms64 hrun r, hr, ?_, ?_⟩
  · exact completes_of_perform (exec_gethigh _ s) (by rw [hi_limbs, place64]) hrun
  · exact completes_of_perform (exec_getlow _ s) (by rw [lo_limbs]; rfl) hrun

/-- Settles O23: the one line presents `FROMS64` of a pattern that reads as `n`. -/
theorem listingFromDeliversInteger : Obligations.ListingFromDeliversInteger := by
  intro s ts x n hrun hlow hhigh
  refine ⟨_, ?_, rfl, read_write_same ts x _⟩
  have hword : fromSigned (lowBits 64 (optionBus ts 64 (some (.int n)))) = Word.from n := by
    rw [lowBits_int, fromSigned_ofInt hlow hhigh]
  exact step_of_completes rfl (decodes_build .froms64 _ _) (completes_of_perform rfl (congrArg _ hword) hrun)

end

/-! The reciprocal engine (R61 to R64). `INVERT` delivers the least `r` with `2^128 ≤ v * r`, which is all the laws about it
need. -/

namespace Sys2Proof.Machine

theorem exec_invert (v : BitVec 64) (s : State) : exec (.invert v) s = perform s ((invertNat v.toNat).map placeWord) := rfl

theorem exec_mulinv (a b : Word) (s : State) : exec (.mulinv a b) s = perform s (mulByInvert a b) := rfl

/-- `r` is `2^128 / v` rounded up (R62). -/
structure CeilReciprocal (v r : ℕ) : Prop where
  low : 2 ^ 128 ≤ v * r
  high : v * r < 2 ^ 128 + v
  le : r ≤ 2 ^ 127

/-- Of an integer's magnitude only the high limb products are left (R60). -/
theorem invertSum_integer (v r : ℕ) : invertSum (v * 2 ^ 64) r = v * r / 2 ^ 64 := by
  have hhi : hiLimb (v * 2 ^ 64) = v := Nat.mul_div_cancel v (by decide)
  have hlo : loLimb (v * 2 ^ 64) = 0 := Nat.mul_mod_left v _
  have hsplit : v * r = v * loLimb r + v * hiLimb r * 2 ^ 64 := by
    conv_lhs => rw [← limbs_eq r]
    ring
  rw [invertSum, hhi, hlo, Nat.zero_mul, Nat.add_zero, hsplit, Nat.add_mul_div_right _ _ (by decide), Nat.add_comm]

theorem invertNat_error {v : ℕ} (h : v ≤ 1) : invertNat v = .error .invalidDivisor := if_pos h

/-- The rule's steps past the test: the floor of `2^128 / v`, the check product, the increment (R61). -/
theorem invertNat_eq {v q : ℕ} (hv : 1 < v) (hv' : v < 2 ^ 64) (hq : 2 ^ 64 * 2 ^ 64 / v = q) :
    invertNat v = .ok (if hiLimb (v * q / 2 ^ 64) ≠ 1 then add128 q 1 else q) := by
  have hdiv : udiv (2 ^ 64) v = .ok q := by
    rw [← hq]
    refine udiv_eq_div (by decide) (by omega) (by omega) (.inl (by omega)) (Nat.div_lt_self (by decide) hv)
  have hle : q ≤ 2 ^ 127 := by
    rw [← hq]
    exact Nat.div_le_of_le_mul (Nat.mul_le_mul_right (2 ^ 127) hv)
  have hcheck := umulByInvert_ok (x := v * 2 ^ 64) (Nat.not_lt.2 hle)
  rw [invertSum_integer] at hcheck
  refine (if_neg (Nat.not_le.2 hv)).trans ?_
  rw [hdiv, Except.bind, hcheck, Except.map]

/-- `INVERT` rounds up: the check product reaches `2^128` exactly when the division left no remainder (R61, R62). -/
theorem invertNat_ok {v : ℕ} (hv : 1 < v) (hv' : v < 2 ^ 64) : ∃ r, invertNat v = .ok r ∧ CeilReciprocal v r := by
  obtain ⟨q, hq⟩ : ∃ q, 2 ^ 64 * 2 ^ 64 / v = q := ⟨_, rfl⟩
  have hlow : v * q ≤ 2 ^ 128 := hq ▸ Nat.mul_div_le _ _
  have hhigh : 2 ^ 128 < v * q + v := hq ▸ Nat.lt_mul_div_succ (2 ^ 64 * 2 ^ 64) (by omega)
  have hmul : 2 * q ≤ v * q := Nat.mul_le_mul_right q hv
  rw [invertNat_eq hv hv' hq]
  refine ⟨_, rfl, ?_⟩
  rcases hlow.lt_or_eq with hrem | hexact
  · have hcheck : hiLimb (v * q / 2 ^ 64) ≠ 1 := by unfold hiLimb; omega
    have hsucc : add128 q 1 = q + 1 := Nat.mod_eq_of_lt (by omega)
    rw [if_pos hcheck, hsucc]
    exact ⟨by rw [Nat.mul_succ]; omega, by rw [Nat.mul_succ]; omega, by omega⟩
  · rw [if_neg (by rw [hexact]; decide)]
    exact ⟨hexact.ge, by omega, by omega⟩

theorem completes_invert {s : State} {v : BitVec 64} {r : ℕ} (hrun : s.flt = 0) (h : invertNat v.toNat = .ok r) :
    Completes (.invert v) s (BitVec.ofNat 128 r) :=
  completes_of_perform (exec_invert v s) (congrArg (Except.map placeWord) h) hrun

/-- `INVERT` of a divisor above 1 delivers the rounded-up reciprocal (R62). -/
theorem exists_completes_invert {s : State} {v : BitVec 64} (hrun : s.flt = 0) (hv : 1 < v.toNat) :
    ∃ r : Word, Completes (.invert v) s r ∧ CeilReciprocal v.toNat r.toNat := by
  obtain ⟨r, hr, hceil⟩ := invertNat_ok hv v.isLt
  have hval : (BitVec.ofNat 128 r).toNat = r :=
    (BitVec.toNat_ofNat _ _).trans (Nat.mod_eq_of_lt (hceil.le.trans_lt (by decide)))
  exact ⟨_, completes_invert hrun hr, by rwa [hval]⟩

theorem CeilReciprocal.ceil_eq {v r : ℕ} (h : CeilReciprocal v r) (hv : 0 < v) : (r : ℤ) = ⌈(2 : ℚ) ^ 128 / v⌉ := by
  have hpos : (0 : ℚ) < v := by exact_mod_cast hv
  have hlow : (2 : ℚ) ^ 128 ≤ v * r := by exact_mod_cast h.low
  have hhigh : (v : ℚ) * r < 2 ^ 128 + v := by exact_mod_cast h.high
  rw [eq_comm, Int.ceil_eq_iff, lt_div_iff₀ hpos, div_le_iff₀ hpos, Int.cast_natCast]
  constructor <;> linarith

/-! Multiplying by the reciprocal (R63, R64). -/

theorem mulByInvert_ok {a b : Word} (h : ¬b.toNat > 2 ^ 127) :
    mulByInvert a b = .ok (signedWord (invertSum a.toInt.natAbs b.toNat) a.msb) :=
  mulByInvert_of_ok (umulByInvert_ok h)

theorem mulByInvert_error {a b : Word} (h : b.toNat > 2 ^ 127) : mulByInvert a b = .error .invalidDivisor :=
  mulByInvert_of_error (umulByInvert_error h)

/-- The magnitude is at most half of `Abs`'s range (R63 (b)). -/
theorem invertSum_natAbs_le (a : Word) {y : ℕ} (hy : y ≤ 2 ^ 127) : invertSum a.toInt.natAbs y ≤ 2 ^ 126 := by
  have hprod : a.toInt.natAbs * y ≤ 2 ^ 127 * 2 ^ 127 := Nat.mul_le_mul (natAbs_toInt_le a) hy
  exact (invertSum_le_mul_div _ _).trans (Nat.div_le_of_le_mul hprod)

/-- So the sign step never misses a word (R63). -/
theorem toInt_signedWord_invertSum (a : Word) {y : ℕ} (hy : y ≤ 2 ^ 127) :
    (signedWord (invertSum a.toInt.natAbs y) a.msb).toInt =
      if a.toInt < 0 then -(invertSum a.toInt.natAbs y : ℤ) else (invertSum a.toInt.natAbs y : ℤ) := by
  have hle := invertSum_natAbs_le a hy
  rw [signedWord_toInt (hle.trans (by decide)) fun _ => hle.trans_lt (by decide)]
  simp only [msb_iff_toInt_neg]

/-- The exact product with the rounded-up reciprocal is the quotient by `v` or one more (R63). -/
theorem CeilReciprocal.mul_div_near {v r u : ℕ} (h : CeilReciprocal v r) (hv : 0 < v) (hu : u ≤ 2 ^ 128) :
    u / v ≤ u * r / 2 ^ 128 ∧ u * r / 2 ^ 128 ≤ u / v + 1 := by
  constructor
  · rw [Nat.le_div_iff_mul_le (by decide)]
    calc u / v * 2 ^ 128 ≤ u / v * (v * r) := Nat.mul_le_mul_left _ h.low
      _ = u / v * v * r := (Nat.mul_assoc _ _ _).symm
      _ ≤ u * r := Nat.mul_le_mul_right r (Nat.div_mul_le_self u v)
  · have hquo : u < v * (u / v + 1) := Nat.lt_mul_div_succ u hv
    have hscaled : v * (u * r) < v * ((u / v + 2) * 2 ^ 128) := by
      calc v * (u * r) = u * (v * r) := Nat.mul_left_comm _ _ _
        _ ≤ u * (2 ^ 128 + v) := Nat.mul_le_mul_left u h.high.le
        _ = u * 2 ^ 128 + v * u := by ring
        _ < v * (u / v + 1) * 2 ^ 128 + v * 2 ^ 128 :=
          Nat.add_lt_add_of_lt_of_le (Nat.mul_lt_mul_of_pos_right hquo (by decide)) (Nat.mul_le_mul_left v hu)
        _ = v * ((u / v + 2) * 2 ^ 128) := by ring
    exact Nat.le_of_lt_succ ((Nat.div_lt_iff_lt_mul (by decide)).2 (Nat.lt_of_mul_lt_mul_left hscaled))

/-- Dropping the lowest limb product costs at most one more unit, downward (R60), so one either way in all. -/
theorem CeilReciprocal.invertSum_near {v r u : ℕ} (h : CeilReciprocal v r) (hv : 0 < v) (hu : u ≤ 2 ^ 128) :
    u / v ≤ invertSum u r + 1 ∧ invertSum u r ≤ u / v + 1 := by
  obtain ⟨hlow, hhigh⟩ := h.mul_div_near hv hu
  exact ⟨hlow.trans (mul_div_le_invertSum_add_one u r), (invertSum_le_mul_div u r).trans hhigh⟩

/-- `v` times its reciprocal exceeds 1 by less than the unit the product keeps (R64). -/
theorem CeilReciprocal.invertSum_eq_one {v r : ℕ} (h : CeilReciprocal v r) (hv : v < 2 ^ 64) :
    invertSum (v * 2 ^ 64) r = 2 ^ 64 := by
  have hlow := h.low
  have hhigh := h.high
  rw [invertSum_integer]
  omega

/-- An integer below `2^63` is its own magnitude, with sign 0. -/
theorem natAbs_integer {v : Limb} (h : v.toNat < 2 ^ 63) :
    (v ++ 0#64 : Word).toInt.natAbs = v.toNat * 2 ^ 64 ∧ (v ++ 0#64 : Word).msb = false := by
  have hval : (v ++ 0#64 : Word).toInt = 2 ^ 64 * v.toNat := by
    rw [toInt_limbs, BitVec.toInt_eq_toNat_of_lt (by omega), BitVec.toNat_zero, Nat.cast_zero, add_zero]
  constructor
  · omega
  · rw [BitVec.msb_eq_toInt, hval]
    exact decide_eq_false (by omega)

end Sys2Proof.Machine

section
open Sys2Proof Sys2Proof.Machine

/-- Settles O47: the rounded-up reciprocal is the ceiling. -/
theorem invertIsCeilingOfReciprocal : Obligations.InvertIsCeilingOfReciprocal := by
  refine ⟨decodes_slice (m := .invert) .invert (by decide) fun _ _ => rfl, fun s v hrun => ?_⟩
  split
  next hrefused =>
    exact raises_of_perform (exec_invert v s) (congrArg (Except.map placeWord) (invertNat_error hrefused)) hrun
  next hv =>
    obtain ⟨r, hr, hceil⟩ := exists_completes_invert hrun (Nat.not_le.1 hv)
    exact ⟨r, hr, hceil.ceil_eq (by omega), hceil.le⟩

/-- Settles O48: the magnitude leaves room for either sign. -/
theorem mulinvTakesSignOfA : Obligations.MulinvTakesSignOfA := by
  refine ⟨decodes_build .mulinv, fun s a b hrun => ?_⟩
  split
  next hrefused => exact raises_of_perform (exec_mulinv a b s) (mulByInvert_error hrefused) hrun
  next haccepted =>
    have hle := Nat.not_lt.1 haccepted
    exact ⟨_, completes_of_perform (exec_mulinv a b s) (mulByInvert_ok haccepted) hrun,
      toInt_signedWord_invertSum a hle, invertSum_natAbs_le a hle⟩

/-- Settles O49: the reciprocal is rounded up and the product down, each by at most one unit of the quotient. -/
theorem mulinvWithinOneUlpOfQuotient : Obligations.MulinvWithinOneUlpOfQuotient := by
  intro s a v hrun hv
  obtain ⟨r, hr, hceil⟩ := exists_completes_invert hrun hv
  refine ⟨r, _, hr, completes_of_perform (exec_mulinv a r s) (mulByInvert_ok (Nat.not_lt.2 hceil.le)) hrun, ?_⟩
  have hmag : (signedWord (invertSum a.toInt.natAbs r.toNat) a.msb).toInt.natAbs =
      invertSum a.toInt.natAbs r.toNat := by
    rw [toInt_signedWord_invertSum a hceil.le]
    split <;> simp
  rw [hmag]
  exact hceil.invertSum_near (by omega) ((natAbs_toInt_le a).trans (by decide))

/-- Settles O50: both products are the same sum on `v * 2^64`, and it is `2^64`. -/
theorem reciprocalLaw : Obligations.ReciprocalLaw := by
  intro s v hrun hv
  obtain ⟨r, hr, hceil⟩ := exists_completes_invert hrun hv
  have hone := hceil.invertSum_eq_one v.isLt
  have hle := Nat.not_lt.2 hceil.le
  refine ⟨r, hr, ?_, fun hsmall => ?_⟩
  · have hw := completes_umulinv (a := v ++ 0#64) hrun hle
    rwa [toNat_integer, hone] at hw
  · obtain ⟨hmag, hsign⟩ := natAbs_integer hsmall
    have hw := mulByInvert_ok (a := v ++ 0#64) hle
    rw [hmag, hsign, hone] at hw
    exact completes_of_perform (exec_mulinv _ r s) hw hrun

end

/-! The faults each command can raise (R111): what its computation can answer. -/

namespace Sys2Proof.Machine

theorem completes_or_raises_of_perform {i : Instr} {s : State} {r : Except Cause Word} {c : Cause}
    (hi : exec i s = perform s r) (hrun : s.flt = 0) (hr : ∀ f, r = .error f → f = c) :
    (∃ w, Completes i s w) ∨ Raises i s c.code := by
  cases hres : r with
  | ok w => exact .inl ⟨w, completes_of_perform hi hres hrun⟩
  | error f => exact .inr (raises_of_perform hi (hr f hres ▸ hres) hrun)

/-- A core's fault is the command's: placing the result adds none. -/
theorem error_of_map_error {r : Except Cause Nat} {f : Cause} (h : r.map placeWord = .error f) : r = .error f := by
  cases r with
  | ok m => exact absurd h nofun
  | error c => exact congrArg _ (Except.error.inj h)

theorem cause_of_umul_error {x y : ℕ} {c : Cause} (h : umul x y = .error c) : c = .arithmeticOverflow :=
  cause_eq_of_error umul_error (fun hfits => ⟨_, umul_ok hfits⟩) h

theorem cause_of_umulByInvert_error {x y : ℕ} {c : Cause} (h : umulByInvert x y = .error c) : c = .invalidDivisor :=
  cause_eq_of_error umulByInvert_error (fun hfits => ⟨_, umulByInvert_ok hfits⟩) h

theorem cause_of_mulByInvert_error {a b : Word} {c : Cause} (h : mulByInvert a b = .error c) : c = .invalidDivisor :=
  cause_eq_of_error mulByInvert_error (fun hfits => ⟨_, mulByInvert_ok hfits⟩) h

theorem cause_of_invertNat_error {v : BitVec 64} {c : Cause} (h : invertNat v.toNat = .error c) :
    c = .invalidDivisor :=
  cause_eq_of_error invertNat_error
    (fun hfits => (invertNat_ok (Nat.not_le.1 hfits) v.isLt).imp fun _ hr => hr.1) h

theorem cause_of_fromF64_error {d : BitVec 64} {c : Cause} (h : fromF64 d = .error c) :
    c = .unrepresentableConversion :=
  cause_eq_of_error fromF64_error (fun hfits => ⟨_, fromF64_ok hfits⟩) h

/-- By a zero divisor the one fault, by any other the other one (R50, R52). -/
def divCause (y : ℕ) : Cause := if y = 0 then .invalidDivisor else .arithmeticOverflow

theorem cause_of_udiv_error {x y : ℕ} {c : Cause} (h : udiv x y = .error c) : c = divCause y := by
  unfold divCause
  split
  next hzero =>
    subst hzero
    exact (Except.error.inj h).symm
  next hzero => exact cause_eq_of_error (udiv_overflow hzero) (exists_udiv_eq_ok hzero) h

theorem cause_of_divWords_error {a b : Word} {c : Cause} (h : divWords a b = .error c) :
    c = divCause b.toInt.natAbs := by
  unfold divCause
  split
  next hzero =>
    have herr : divWords a b = .error .invalidDivisor := divWords_of_error (hzero ▸ udiv_zero _)
    exact (Except.error.inj (herr.symm.trans h)).symm
  next hzero =>
    rw [divWords_eq_applySign hzero] at h
    exact cause_of_applySign_error h

/-- Either way it is one of the two codes. -/
theorem raises_one_or_two_of_divCause {i : Instr} {s : State} {y : ℕ} (h : Raises i s (divCause y).code) :
    Raises i s 1 ∨ Raises i s 2 := by
  unfold divCause at h
  split at h
  next => exact .inr h
  next => exact .inl h

end Sys2Proof.Machine

section
open Sys2Proof Sys2Proof.Machine

/-- Settles O17, command by command; those outside the fault table have a computation that only delivers. -/
theorem faultClassesPerCommand : Obligations.FaultClassesPerCommand := by
  intro i s hrun
  cases i
  case umul a b =>
    exact completes_or_raises_of_perform (exec_umul a b s) hrun fun f hf => cause_of_umul_error (error_of_map_error hf)
  case mul a b => exact completes_or_raises_of_perform (exec_mul a b s) hrun fun f hf => cause_of_mulWords_error hf
  case udiv a b =>
    exact (completes_or_raises_of_perform (exec_udiv a b s) hrun fun f hf =>
      cause_of_udiv_error (error_of_map_error hf)).imp_right raises_one_or_two_of_divCause
  case div a b =>
    exact (completes_or_raises_of_perform (exec_div a b s) hrun fun f hf =>
      cause_of_divWords_error hf).imp_right raises_one_or_two_of_divCause
  case invert v =>
    exact completes_or_raises_of_perform (exec_invert v s) hrun fun f hf =>
      cause_of_invertNat_error (error_of_map_error hf)
  case umulinv a b =>
    exact completes_or_raises_of_perform (exec_umulinv a b s) hrun fun f hf =>
      cause_of_umulByInvert_error (error_of_map_error hf)
  case mulinv a b =>
    exact completes_or_raises_of_perform (exec_mulinv a b s) hrun fun f hf => cause_of_mulByInvert_error hf
  case fromf64 d => exact completes_or_raises_of_perform (exec_fromf64 d s) hrun fun f hf => cause_of_fromF64_error hf
  all_goals exact ⟨_, completes_of_perform rfl rfl hrun⟩

end

/-! `FROMF64` in closed form, and the way back through `GETDOUBLE` (R80, R81, R94). A pattern's scaled magnitude is either
below `2^52` or whole; where it is whole neither command rounds. -/

namespace Sys2Proof.Machine

theorem magnitude_nonneg (d : BitVec 64) : 0 ≤ F64.magnitude d := by
  rw [magnitude_eq_units_div]
  positivity

theorem magnitude_scaled (d : BitVec 64) : F64.magnitude d * 2 ^ 64 = (F64.units d : ℚ) / 2 ^ 1010 := by
  have hscale : (2 : ℚ) ^ 1074 = 2 ^ 1010 * 2 ^ 64 := by rw [← pow_add]
  rw [magnitude_eq_units_div, hscale, div_mul_eq_mul_div, mul_div_mul_right _ _ (by positivity)]

theorem scaled_lt_or_whole (d : BitVec 64) :
    F64.magnitude d * 2 ^ 64 < 2 ^ 52 ∨ ∃ n : ℕ, F64.magnitude d * 2 ^ 64 = n := by
  rw [magnitude_scaled]
  rcases units_lt_or_dvd d 1010 with hlow | ⟨n, hn⟩
  · left
    rw [div_lt_iff₀ (by positivity), ← pow_add]
    exact_mod_cast hlow
  · right
    refine ⟨n, ?_⟩
    rw [hn, Nat.cast_mul, Nat.cast_pow, Nat.cast_ofNat, mul_div_cancel_left₀ _ (by positivity)]

/-- Rounding half up leaves a whole number as it is. -/
theorem floor_natCast_add_half (n : ℕ) : ⌊(n : ℚ) + 1 / 2⌋₊ = n := by
  rw [add_comm, Nat.floor_add_natCast (by norm_num), Nat.floor_eq_zero.2 (by norm_num), Nat.zero_add]

/-- Integer part and rounded fraction, with or without the carry, are the whole magnitude rounded at once (R81). -/
theorem f64Magnitude_eq_floor {x : ℚ} (hx : 0 ≤ x) : f64Magnitude x = ⌊x * 2 ^ 64 + 1 / 2⌋₊ := by
  have hfrac : 0 ≤ (x - ⌊x⌋₊) * 2 ^ 64 + 1 / 2 := by
    have hnonneg : 0 ≤ x - ⌊x⌋₊ := sub_nonneg.2 (Nat.floor_le hx)
    positivity
  have hsplit : x * 2 ^ 64 + 1 / 2 = ((x - ⌊x⌋₊) * 2 ^ 64 + 1 / 2) + (⌊x⌋₊ * 2 ^ 64 : ℕ) := by
    push_cast
    ring
  rw [hsplit, Nat.floor_add_natCast hfrac, ← f64Fraction, f64Magnitude]
  split
  next hcarry => rw [hcarry, Nat.succ_mul, Nat.add_comm]
  next => exact Nat.add_comm _ _

/-- An accepted magnitude's word ends where the signed range does, and below it without the sign (R80). -/
theorem f64Magnitude_fits {d : BitVec 64} (h : ¬f64Refused d) :
    f64Magnitude (F64.magnitude d) ≤ 2 ^ 127 ∧
      (F64.sign d = false → f64Magnitude (F64.magnitude d) < 2 ^ 127) := by
  obtain ⟨-, hle, hedge⟩ := (not_or.1 h).imp_right not_or.1
  rw [not_lt] at hle
  rw [f64Magnitude_eq_floor (magnitude_nonneg d)]
  constructor
  · refine Nat.lt_succ_iff.1 ((Nat.floor_lt' (by decide)).2 ?_)
    push_cast
    linarith
  · intro hsign
    have hlt : F64.magnitude d < 2 ^ 63 := lt_of_le_of_ne hle fun heq => hedge ⟨heq, hsign⟩
    rcases scaled_lt_or_whole d with hsmall | ⟨n, hn⟩
    · refine (Nat.floor_lt' (by decide)).2 ?_
      push_cast
      linarith
    · rw [hn, floor_natCast_add_half]
      have hn' : (n : ℚ) < 2 ^ 127 := by linarith
      exact_mod_cast hn'

/-- What an accepted pattern is converted to (R81). -/
theorem fromF64_closed_form {d : BitVec 64} (h : ¬f64Refused d) :
    ∃ w, fromF64 d = .ok w ∧
      w.toInt = (if F64.sign d then -1 else 1) * ⌊F64.magnitude d * 2 ^ 64 + 1 / 2⌋ := by
  refine ⟨_, fromF64_ok h, ?_⟩
  obtain ⟨hle, hlt⟩ := f64Magnitude_fits h
  have hfloor : ⌊F64.magnitude d * 2 ^ 64 + 1 / 2⌋ = (f64Magnitude (F64.magnitude d) : ℤ) := by
    have hnonneg := magnitude_nonneg d
    rw [f64Magnitude_eq_floor hnonneg, Int.natCast_floor_eq_floor (by positivity)]
  rw [hfloor]
  by_cases hzero : F64.magnitude d = 0
  · have hmag : f64Magnitude 0 = 0 := by
      rw [f64Magnitude_eq_floor le_rfl, zero_mul]
      exact floor_natCast_add_half 0
    rw [hzero, hmag, signedWord_toInt (by decide) fun _ => by decide]
    simp
  · rw [decide_eq_true hzero, Bool.and_true, signedWord_toInt hle hlt]
    cases F64.sign d <;> simp

/-- Where the scaled magnitude is whole, the word has the pattern's value (R80 (a)). -/
theorem val_eq_value_of_whole {d : BitVec 64} {w : Word} {n : ℕ} (hn : F64.magnitude d * 2 ^ 64 = n)
    (hw : w.toInt = (if F64.sign d then -1 else 1) * ⌊F64.magnitude d * 2 ^ 64 + 1 / 2⌋) :
    Word.val w = F64.value d := by
  have hfloor : ⌊(n : ℚ) + 1 / 2⌋ = n := by
    rw [← Int.natCast_floor_eq_floor (by positivity), floor_natCast_add_half]
  have hmag : F64.magnitude d = n / 2 ^ 64 := by rw [eq_div_iff (by positivity), hn]
  rw [Word.val, hw, hn, hfloor, F64.value, hmag]
  cases F64.sign d <;> simp [neg_div]

/-- From magnitude `2^(-12)` on, and at 0, the scaled magnitude is whole (R80 (a)). -/
theorem scaled_whole {d : BitVec 64} (h : F64.magnitude d = 0 ∨ (1 : ℚ) / 2 ^ 12 ≤ F64.magnitude d) :
    ∃ n : ℕ, F64.magnitude d * 2 ^ 64 = n := by
  rcases h with hzero | hlow
  · exact ⟨0, by rw [hzero, zero_mul, Nat.cast_zero]⟩
  · refine (scaled_lt_or_whole d).resolve_left (not_lt.2 ?_)
    linarith

/-! A finite nonzero pattern is known by its value (R29). -/

theorem fraction_lt (d : BitVec 64) : F64.fraction d < 2 ^ 52 := (d.extractLsb' 0 52).isLt

theorem units_lt (d : BitVec 64) : F64.units d < 2 ^ 52 * 2 ^ F64.exponent d := by
  have hf := fraction_lt d
  unfold F64.units
  split
  next hsub => rwa [hsub, Nat.pow_zero, Nat.mul_one]
  next hnormal =>
    calc (2 ^ 52 + F64.fraction d) * 2 ^ (F64.exponent d - 1)
      _ < 2 ^ 53 * 2 ^ (F64.exponent d - 1) := Nat.mul_lt_mul_of_pos_right (by omega) (by positivity)
      _ = 2 ^ 52 * 2 ^ F64.exponent d := by
        rw [← pow_add, ← pow_add]
        congr 1
        omega

theorem units_lt_of_exponent_lt {d e : BitVec 64} (h : F64.exponent d < F64.exponent e) : F64.units d < F64.units e := by
  calc F64.units d < 2 ^ 52 * 2 ^ F64.exponent d := units_lt d
    _ ≤ 2 ^ 52 * 2 ^ (F64.exponent e - 1) := Nat.mul_le_mul_left _ (Nat.pow_le_pow_right (by decide) (by omega))
    _ ≤ (2 ^ 52 + F64.fraction e) * 2 ^ (F64.exponent e - 1) := Nat.mul_le_mul_right _ (Nat.le_add_right _ _)
    _ = F64.units e := by rw [F64.units, if_neg (Nat.ne_zero_of_lt h)]

/-- Equal magnitudes have equal exponent and fraction fields. -/
theorem fields_eq_of_units_eq {d e : BitVec 64} (h : F64.units d = F64.units e) :
    F64.exponent d = F64.exponent e ∧ F64.fraction d = F64.fraction e := by
  have hexp : F64.exponent d = F64.exponent e := by
    rcases lt_trichotomy (F64.exponent d) (F64.exponent e) with hlt | heq | hgt
    · exact absurd h (units_lt_of_exponent_lt hlt).ne
    · exact heq
    · exact absurd h (units_lt_of_exponent_lt hgt).ne'
  refine ⟨hexp, ?_⟩
  unfold F64.units at h
  rw [hexp] at h
  split at h
  next => exact h
  next => exact Nat.add_left_cancel (Nat.eq_of_mul_eq_mul_right (by positivity) h)

/-- A pattern is its three fields (R29). -/
theorem toNat_eq_fields (d : BitVec 64) :
    d.toNat = ((F64.sign d).toNat * 2 ^ 11 + F64.exponent d) * 2 ^ 52 + F64.fraction d := by
  have hd := d.isLt
  rw [F64.sign, BitVec.msb_eq_decide, F64.exponent, F64.fraction, BitVec.extractLsb'_toNat, BitVec.extractLsb'_toNat,
    Nat.shiftRight_eq_div_pow, Nat.shiftRight_eq_div_pow]
  by_cases hneg : 2 ^ 63 ≤ d.toNat
  · rw [decide_eq_true hneg, Bool.toNat_true]
    omega
  · rw [decide_eq_false hneg, Bool.toNat_false]
    omega

theorem eq_of_value_eq {d e : BitVec 64} (hne : F64.units e ≠ 0) (h : F64.value d = F64.value e) : d = e := by
  have hfactor : signFactor (F64.sign e) ≠ 0 := fun h0 => by simpa [h0] using abs_signFactor (F64.sign e)
  rw [value_eq_unitsAlong (F64.sign e) d, value_eq_unitsAlong (F64.sign e) e] at h
  have halong : unitsAlong (F64.sign e) d = unitsAlong (F64.sign e) e := by
    have hunits := (div_left_inj' (by positivity)).1 (mul_left_cancel₀ hfactor h)
    exact_mod_cast hunits
  have hsame : unitsAlong (F64.sign e) e = F64.units e := if_pos rfl
  rw [hsame] at halong
  unfold unitsAlong at halong
  split at halong
  next hsign =>
    obtain ⟨hexp, hfrac⟩ := fields_eq_of_units_eq (Int.ofNat_inj.1 halong)
    apply BitVec.eq_of_toNat_eq
    rw [toNat_eq_fields d, toNat_eq_fields e, hsign, hexp, hfrac]
  next => omega

theorem value_eq_zero_iff (d : BitVec 64) : F64.value d = 0 ↔ F64.magnitude d = 0 := by
  rw [F64.value]
  cases F64.sign d <;> simp

theorem val_eq_zero_iff (a : Word) : Word.val a = 0 ↔ a = 0 := by
  rw [Word.val, div_eq_zero_iff, or_iff_left (by positivity), Int.cast_eq_zero, ← toInt_zero, BitVec.toInt_inj]

/-! `GETDOUBLE` where a pattern has the word's value (R94 (a)). -/

/-- A word whose value some finite pattern has converts exactly: nothing is nearer. -/
theorem completes_getdouble_exact {s : State} {a : Word} {e : BitVec 64} (hrun : s.flt = 0) (ha : a ≠ 0)
    (he : F64.exponent e ≠ 2047) (hval : F64.value e = Word.val a) :
    ∃ d : BitVec 64, Completes (.getdouble a) s (d.setWidth 128) ∧ F64.value d = Word.val a := by
  have hnearest := getDoubleIsNearestTiesToEven.2 s a hrun
  rw [if_neg ha] at hnearest
  obtain ⟨d, hd, -, -, -, hnear⟩ := hnearest
  have hdist := (hnear e he).1
  rw [hval, sub_self, abs_zero] at hdist
  exact ⟨d, hd, sub_eq_zero.1 (abs_nonpos_iff.1 hdist)⟩

theorem value_eq_val_of_units {a : Word} {d : BitVec 64} (hsign : F64.sign d = a.msb)
    (hunits : F64.units d = absWord a * 2 ^ 1010) : F64.value d = Word.val a := by
  rw [value_eq_unitsAlong a.msb, val_eq_absWord, unitsAlong, if_pos hsign, hunits, Int.cast_natCast]

/-- A magnitude of at most 53 significant bits has a pattern: its bits moved up to the top of the significand (R94 (a)). -/
theorem exists_pattern {a : Word} {q k : ℕ} (hne : absWord a ≠ 0) (ha : absWord a = q * 2 ^ k) (hq : q < 2 ^ 53) :
    ∃ d : BitVec 64, F64.exponent d ≠ 2047 ∧ F64.value d = Word.val a := by
  have hq0 : q ≠ 0 := left_ne_zero_of_mul (ha ▸ hne)
  obtain ⟨j, hj⟩ : ∃ j, Nat.log2 q = j := ⟨_, rfl⟩
  have hlow : 2 ^ j ≤ q := hj ▸ Nat.log2_self_le hq0
  have hhigh : q < 2 ^ (j + 1) := hj ▸ Nat.lt_log2_self
  have hj52 : j ≤ 52 := Nat.lt_succ_iff.1 ((Nat.pow_lt_pow_iff_right (by decide)).1 (hlow.trans_lt hq))
  have hpos : j + k ≤ 127 := by
    refine (Nat.pow_le_pow_iff_right (by decide : 1 < 2)).1 ?_
    calc 2 ^ (j + k) = 2 ^ j * 2 ^ k := pow_add _ _ _
      _ ≤ q * 2 ^ k := Nat.mul_le_mul_right _ hlow
      _ = absWord a := ha.symm
      _ ≤ 2 ^ 127 := absWord_le a
  have hsiglow : 2 ^ 52 ≤ q * 2 ^ (52 - j) := by
    calc 2 ^ 52 = 2 ^ j * 2 ^ (52 - j) := by rw [← pow_add, Nat.add_sub_cancel' hj52]
      _ ≤ _ := Nat.mul_le_mul_right _ hlow
  have hsighigh : q * 2 ^ (52 - j) < 2 ^ 53 := by
    calc q * 2 ^ (52 - j) < 2 ^ (j + 1) * 2 ^ (52 - j) := Nat.mul_lt_mul_of_pos_right hhigh (by positivity)
      _ = 2 ^ 53 := by rw [← pow_add, Nat.add_right_comm, Nat.add_sub_cancel' hj52]
  obtain ⟨hsign, hexp, -, hunits⟩ := pack_fields a.msb hsiglow hsighigh hpos
  refine ⟨_, by omega, value_eq_val_of_units hsign ?_⟩
  rw [hunits, ha, mul_assoc q, ← pow_add, mul_assoc q, ← pow_add, mul_assoc q, ← pow_add]
  congr 2
  omega

end Sys2Proof.Machine

section
open Sys2Proof Sys2Proof.Machine

/-- Settles O28: the rule's split, scaling and carry come to one rounding of the magnitude, within the signed range. -/
theorem fromF64RoundsMagnitudeHalfUp : Obligations.FromF64RoundsMagnitudeHalfUp := by
  intro s d hrun
  split
  next hrefused => exact raises_of_perform (exec_fromf64 d s) (fromF64_error hrefused) hrun
  next haccepted =>
    obtain ⟨w, hw, hval⟩ := fromF64_closed_form haccepted
    exact ⟨w, completes_of_perform (exec_fromf64 d s) hw hrun, hval⟩

/-- Settles O29: the closed form has a whole number to round. -/
theorem fromF64ExactFromTwoPowMinus12 : Obligations.FromF64ExactFromTwoPowMinus12 := by
  intro s d hrun hfinite hmag hrange
  have haccepted : ¬f64Refused d := by
    rintro (hspecial | hbig | ⟨hedge, hsign⟩)
    · exact hfinite hspecial
    · rcases hrange with hlt | ⟨heq, -⟩ <;> linarith
    · rcases hrange with hlt | ⟨-, hneg⟩
      · exact hlt.ne hedge
      · exact Bool.false_ne_true (hsign.symm.trans hneg)
  obtain ⟨w, hw, hval⟩ := fromF64_closed_form haccepted
  obtain ⟨n, hn⟩ := scaled_whole hmag
  exact ⟨w, completes_of_perform (exec_fromf64 d s) hw hrun, val_eq_value_of_whole hn hval⟩

/-- Settles O57: some pattern has the word's value, so the nearest one has. -/
theorem getDoubleExactTo53Bits : Obligations.GetDoubleExactTo53Bits := by
  intro s a q k hrun hne ha hq
  have hmag : absWord a ≠ 0 := by
    rw [absWord_eq_natAbs]
    exact fun h => hne (BitVec.eq_of_toInt_eq (Int.natAbs_eq_zero.1 h))
  obtain ⟨e, he, hval⟩ := exists_pattern hmag ((absWord_eq_natAbs a).trans ha) hq
  exact completes_getdouble_exact hrun hne he hval

/-- Settles O58: the way in is exact, so the way out is, and a nonzero pattern is known by its value. -/
theorem doubleRoundTrip : Obligations.DoubleRoundTrip := by
  intro s d hrun hfinite hmag hrange
  obtain ⟨w, hw, hval⟩ := fromF64ExactFromTwoPowMinus12 s d hrun hfinite hmag hrange
  refine ⟨w, hw, ?_⟩
  have hzero : w = 0 ↔ F64.magnitude d = 0 := by rw [← val_eq_zero_iff, hval, value_eq_zero_iff]
  split
  next h0 =>
    obtain rfl := hzero.2 h0
    exact completes_of_perform (exec_getdouble 0 s) rfl hrun
  next hne =>
    obtain ⟨e, he, heval⟩ := completes_getdouble_exact hrun (mt hzero.1 hne) hfinite hval.symm
    obtain rfl : e = d := eq_of_value_eq (mt (units_eq_zero_iff d).1 hne) (heval.trans hval)
    exact he

end
